-- ==== Sys2Proof/Word.lean ====
section
/-! DEFINITION. The unit of data of the block: the byte, and the 16-bit length field (spec/00_scope.md R12).
No other width occurs; all arithmetic on lengths and offsets is over the natural numbers (R13). -/

namespace Sys2Proof

/-- A byte: 8 bits, an unsigned value 0..255 (R12). -/
abbrev Byte := BitVec 8

/-- The 16-bit length field of a frame (R6, R61). -/
abbrev Len := BitVec 16

end Sys2Proof
end

