-- ==== Sys2Proof/Config.lean ====
section
/-! DEFINITION. What is fixed for one build of the block: the constants of spec/00_scope.md R6 and R7, the static
parameters of R8 to R11, the closed set of command identifiers (30_encoding.md R72), and the FREE VALUES that stand
for the catalog bytes the spec does not give (R11, 92_eei_decisions.md D6). -/

namespace Sys2Proof

/-- `HEADER = [0xC8, 0x8C]` (R6). -/
def HEADER : List Byte := [0xC8, 0x8C]

/-- `FOOTER = [0x0D, 0x0A]` (R6). -/
def FOOTER : List Byte := [0x0D, 0x0A]

/-- `SKELETON = 6`: the look-ahead the scanner needs before it examines a position (R6). -/
def SKELETON : Nat := 6

/-- `MIN_LEN = 6`: the smallest consistent declared length (R7, D2). -/
def MIN_LEN : Nat := 6

/-- The count every `Resync` records and the distance it advances (60_exceptions.md R163). -/
def RESYNC_SKIP : Nat := 2

/-- The static parameters that the spec leaves to a build (R8, R9). -/
structure Config where
  /-- `MAX_LEN`: the largest declared length the decoder accepts (R8). -/
  maxLen : Nat
  /-- `MAX_CHUNK`: the largest `FEED`; `none` is the unbounded reading that R9 allows. -/
  maxChunk : Option Nat
  deriving DecidableEq, Repr

namespace Config

/-- The default build: `MAX_LEN = 65535` (R8), `MAX_CHUNK` unbounded (R9, assumption 2). -/
def standard : Config := { maxLen := 65535, maxChunk := none }

/-- R8: `6 ≤ MAX_LEN ≤ 65535`; R9: `MAX_CHUNK ≥ 1`. -/
def legal (c : Config) : Bool :=
  decide (MIN_LEN ≤ c.maxLen) && decide (c.maxLen ≤ 65535) && c.maxChunk.all (fun m => decide (1 ≤ m))

/-- R132 (a): a chunk of `n` bytes is within `MAX_CHUNK`. -/
def allowsChunk (c : Config) (n : Nat) : Bool := c.maxChunk.all (fun m => decide (n ≤ m))

/-- R10: `BUF_CAP = MAX_LEN - 1 + MAX_CHUNK`; no capacity where `MAX_CHUNK` is unbounded. -/
def bufCap (c : Config) : Option Nat := c.maxChunk.map (fun m => c.maxLen - 1 + m)

end Config

/-- The closed set of command identifiers, in the order of R72. -/
inductive CmdId
  | scanContinuous
  | scanSingle
  | scanStop
  | getHardwareVersion
  | getFirmwareVersion
  | getDeviceId
  | getTransmitPower
  | getAntennaStatus
  deriving DecidableEq, Repr

namespace Config

/-- FREE VALUE (assumption 3): the command byte, at frame offset 4, of a catalog frame the spec does not give. -/
opaque cmdOpcode : CmdId → Byte

/-- FREE VALUE (assumption 3): the bytes between command byte and trailing byte of such a frame. -/
opaque cmdMiddle : CmdId → List Byte

/-- FREE VALUE (assumption 3): the trailing payload byte of such a frame. -/
opaque cmdTrailer : CmdId → Byte

/-- FREE VALUE (assumption 4): which of the unknown frames ends its payload with `0x22` (R100, N20). -/
opaque trailer22 : Nat

/-- FREE VALUE (assumption 4): which of the others ends its payload with `0x84` (R100, N20). -/
opaque trailer84 : Nat

end Config

end Sys2Proof
end

