-- ==== Sys2Proof/Syntax.lean ====
section
/-! DEFINITION. The operations of the block: one constructor for each row of spec/opcode_table.json. -/

namespace Sys2Proof

/-- One row of the opcode table each. `len` is the window's declared length `L`, bits 15..0 of the row's word. -/
inductive Instr
  /-- `ENC.SCANC` (R92), command code `000`. -/
  | encScanc
  /-- `ENC.SCAN1` (R93), command code `001`. -/
  | encScan1
  /-- `ENC.STOP` (R94), command code `010`. -/
  | encStop
  /-- `ENC.HWVER` (R95), command code `011`. -/
  | encHwver
  /-- `ENC.FWVER` (R96), command code `100`. -/
  | encFwver
  /-- `ENC.DEVID` (R97), command code `101`. -/
  | encDevid
  /-- `ENC.TXPWR` (R98), command code `110`. -/
  | encTxpwr
  /-- `ENC.ANT` (R99), command code `111`. -/
  | encAnt
  /-- `SCAN.SHORT` (R111): fewer than 6 bytes at the cursor. -/
  | scanShort
  /-- `SCAN.SKIP1` (R112): no header at the cursor. -/
  | scanSkip1
  /-- `SCAN.BADLEN` (R113): a header with an impossible length. -/
  | scanBadlen (len : Len)
  /-- `SCAN.WAIT` (R114): an incomplete frame. -/
  | scanWait (len : Len)
  /-- `SCAN.EMIT` (R115): a valid frame. -/
  | scanEmit (len : Len)
  /-- `SCAN.RESYNC2` (R116): header and length, wrong footer. -/
  | scanResync2 (len : Len)
  /-- `FEED` (R130): the host feeds one chunk. -/
  | feed (chunk : List Byte)
  /-- `RESET` (R133): the host clears the decoder. -/
  | reset
  deriving DecidableEq, Repr

end Sys2Proof
end

