-- ==== Sys2Proof/WellFormed.lean ====
section
/-! DEFINITION. Which instructions can occur at all in a build `c`: the operand ranges of 30_encoding.md R65 and of
42_decoder_ops.md R132 (a). -/

namespace Sys2Proof

/-- A declared length the decoder accepts: `MIN_LEN ≤ L ≤ MAX_LEN` (R64 (b)). -/
def lenInRange (maxLen L : Nat) : Bool := decide (MIN_LEN ≤ L) && decide (L ≤ maxLen)

/-- The operand checks. `SCAN.WAIT` needs `L > W ≥ SKELETON`, so `L = 6` never waits (DEDUCED, assumption 12). -/
def Instr.wellFormed (c : Config) : Instr → Bool
  | .encScanc => true
  | .encScan1 => true
  | .encStop => true
  | .encHwver => true
  | .encFwver => true
  | .encDevid => true
  | .encTxpwr => true
  | .encAnt => true
  | .scanShort => true
  | .scanSkip1 => true
  | .scanBadlen len => !lenInRange c.maxLen len.toNat
  | .scanWait len => lenInRange c.maxLen len.toNat && decide (SKELETON < len.toNat)
  | .scanEmit len => lenInRange c.maxLen len.toNat
  | .scanResync2 len => lenInRange c.maxLen len.toNat
  | .feed chunk => c.allowsChunk chunk.length
  | .reset => true

end Sys2Proof
end

