-- ==== Sys2Proof/Decode.lean ====
section
/-! DEFINITION. Reading the block's three kinds of code (spec/30_encoding.md): the 3-bit command identifier at the
encoder's port (R72), the window of bytes at the scan cursor (R65), and the host's own operations, which the spec gives
no bits. Then the encoder of the same codes, and the form in which spec/opcode_table.json writes a row's word.
Every code decodes: no command code is unused (R72) and every window is classified (R66). -/

namespace Sys2Proof

/-- The unsigned number formed from bytes, the first most significant (R40, R41). -/
def beNat (bs : List Byte) : Nat := bs.foldl (fun acc b => 256 * acc + b.toNat) 0

/-- `MemRead(a, n)` over a byte sequence: defined only when `a + n` does not pass its end (R40). -/
def readBE (bs : List Byte) (a n : Nat) : Option Nat :=
  if a + n ≤ bs.length then some (beNat ((bs.drop a).take n)) else none

/-- The two bytes of a length field, the high byte first (R41, R61). -/
def lenBytes (len : Len) : List Byte := [len.extractLsb' 8 8, len.extractLsb' 0 8]

/-- `hdr` of R110, at the first byte of a window: compared byte by byte, `C8` first (R41). -/
def hasHeader (w : List Byte) : Bool := readBE w 0 1 == some 0xC8 && readBE w 1 1 == some 0x8C

/-- `L` of R110: the big-endian number at window offset 2 (R61). Read only when 6 bytes are there. -/
def declaredLen (w : List Byte) : Len := BitVec.ofNat 16 ((readBE w 2 2).getD 0)

/-- `ftr` of R110: the footer at the one position the length implies (R70). -/
def hasFooter (w : List Byte) (L : Nat) : Bool :=
  readBE w (L - 2) 1 == some 0x0D && readBE w (L - 1) 1 == some 0x0A

/-- What the scanner can decide at a window: the rows of R65. -/
inductive ScanStep
  | short
  | skip1
  | badlen (len : Len)
  | wait (len : Len)
  | emit (len : Len)
  | resync2 (len : Len)
  deriving DecidableEq, Repr

/-- The operation of the opcode table that a scan step is. -/
def ScanStep.instr : ScanStep → Instr
  | .short => .scanShort
  | .skip1 => .scanSkip1
  | .badlen len => .scanBadlen len
  | .wait len => .scanWait len
  | .emit len => .scanEmit len
  | .resync2 len => .scanResync2 len

/-- The steps that stop the scan (R117); the others continue it. -/
def ScanStep.stops : ScanStep → Bool
  | .short => true
  | .skip1 => false
  | .badlen _ => false
  | .wait _ => true
  | .emit _ => false
  | .resync2 _ => false

/-- How far the cursor advances: "0 (and stops), 1, 2, or the declared length `L`" (R23). -/
def ScanStep.distance : ScanStep → Nat
  | .short => 0
  | .skip1 => 1
  | .badlen _ => RESYNC_SKIP
  | .wait _ => 0
  | .emit len => len.toNat
  | .resync2 _ => RESYNC_SKIP

/-- R65: the first row that applies to the window `w = BUF[CUR..FILL)`, tested in the order of R169. -/
def decodeScan (maxLen : Nat) (w : List Byte) : ScanStep :=
  if w.length < SKELETON then .short
  else if hasHeader w = false then .skip1
  else if lenInRange maxLen (declaredLen w).toNat = false then .badlen (declaredLen w)
  else if w.length < (declaredLen w).toNat then .wait (declaredLen w)
  else if hasFooter w (declaredLen w).toNat = true then .emit (declaredLen w)
  else .resync2 (declaredLen w)

/-- The 3-bit code of a command identifier (R72). -/
def CmdId.code : CmdId → BitVec 3
  | .scanContinuous => 0b000
  | .scanSingle => 0b001
  | .scanStop => 0b010
  | .getHardwareVersion => 0b011
  | .getFirmwareVersion => 0b100
  | .getDeviceId => 0b101
  | .getTransmitPower => 0b110
  | .getAntennaStatus => 0b111

/-- The command identifier of a 3-bit code; all eight codes are used (R72), the last line is code 7. -/
def decodeCommand (bits : BitVec 3) : CmdId :=
  match bits.toNat with
  | 0 => .scanContinuous
  | 1 => .scanSingle
  | 2 => .scanStop
  | 3 => .getHardwareVersion
  | 4 => .getFirmwareVersion
  | 5 => .getDeviceId
  | 6 => .getTransmitPower
  | _ => .getAntennaStatus

/-- The `ENC.*` operation of a command identifier (R72). -/
def CmdId.instr : CmdId → Instr
  | .scanContinuous => .encScanc
  | .scanSingle => .encScan1
  | .scanStop => .encStop
  | .getHardwareVersion => .encHwver
  | .getFirmwareVersion => .encFwver
  | .getDeviceId => .encDevid
  | .getTransmitPower => .encTxpwr
  | .getAntennaStatus => .encAnt

/-- The code of an operation, by the place it is read from. -/
inductive Code
  /-- A 3-bit identifier at the encoder's port (R72). -/
  | command (bits : BitVec 3)
  /-- The bytes `BUF[CUR..FILL)` at the scan cursor (R65). -/
  | window (bytes : List Byte)
  /-- The host's `FEED` request: "host operation, no bit pattern" (opcode table). -/
  | hostFeed (chunk : List Byte)
  /-- The host's `RESET` request: "host operation, no bit pattern" (opcode table). -/
  | hostReset
  deriving DecidableEq, Repr

/-- Total: every code is the code of exactly one operation (R66, R72). -/
def decode (maxLen : Nat) : Code → Instr
  | .command bits => (decodeCommand bits).instr
  | .window bytes => (decodeScan maxLen bytes).instr
  | .hostFeed chunk => .feed chunk
  | .hostReset => .reset

/-! The encoder, from the same tables. -/

/-- A frame of the wire format around a payload (R60): header, total length, payload, footer. -/
def frameOf (payload : List Byte) : List Byte :=
  HEADER ++ lenBytes (BitVec.ofNat 16 (payload.length + SKELETON)) ++ payload ++ FOOTER

/-- A code of each operation. For a scan step it is the shortest window that selects it, with the bytes the row does
not name (the payload, the wrong footer, a byte that is no header) zero (assumption 11). -/
def encode : Instr → Code
  | .encScanc => .command (CmdId.code .scanContinuous)
  | .encScan1 => .command (CmdId.code .scanSingle)
  | .encStop => .command (CmdId.code .scanStop)
  | .encHwver => .command (CmdId.code .getHardwareVersion)
  | .encFwver => .command (CmdId.code .getFirmwareVersion)
  | .encDevid => .command (CmdId.code .getDeviceId)
  | .encTxpwr => .command (CmdId.code .getTransmitPower)
  | .encAnt => .command (CmdId.code .getAntennaStatus)
  | .scanShort => .window []
  | .scanSkip1 => .window (List.replicate SKELETON 0)
  | .scanBadlen len => .window (HEADER ++ lenBytes len ++ [0, 0])
  | .scanWait len => .window (HEADER ++ lenBytes len ++ [0, 0])
  | .scanEmit len => .window (HEADER ++ lenBytes len ++ List.replicate (len.toNat - SKELETON) 0 ++ FOOTER)
  | .scanResync2 len => .window (HEADER ++ lenBytes len ++ List.replicate (len.toNat - SKELETON) 0 ++ [0, 0])
  | .feed chunk => .hostFeed chunk
  | .reset => .hostReset

/-! The form of spec/opcode_table.json. -/

/-- The `k` bytes of a number, the most significant first: the table's window word has "byte CUR most significant". -/
def wordBytes : Nat → Nat → List Byte
  | 0, _ => []
  | k + 1, w => BitVec.ofNat 8 (w / 256 ^ k) :: wordBytes k w

/-- The window that a table word of `nbits` bits stands for, with zero bytes after it up to the `SKELETON` look-ahead;
a row of no bits is the empty window (assumption 8). -/
def tableWindow (nbits w : Nat) : List Byte :=
  if nbits = 0 then []
  else wordBytes (nbits / 8) w ++ List.replicate (SKELETON - nbits / 8) 0

/-- A table word's instruction in the default build: 8 bits hold a command code, anything else a scan window. -/
def decodeTableWord (nbits w : Nat) : Option Instr :=
  if w < 2 ^ nbits then
    if nbits = 8 then
      if w < 8 then some (decode Config.standard.maxLen (.command (BitVec.ofNat 3 w))) else none
    else some (decode Config.standard.maxLen (.window (tableWindow nbits w)))
  else none

end Sys2Proof
end

