-- ==== Sys2Proof/Machine/State.lean ====
section
/-! DEFINITION. The state of the machine, its outputs and inputs, the reasons a step can stop, and the state after
reset. The block's own state is `BUF`, `FILL` and `CUR` (spec/10_state.md R20); `cfg` holds the static parameters
(00_scope.md R8, R9); the other fields are the model's: where in a `FEED` the decoder is, what it has put out, and
what the host presents to it. -/

namespace Sys2Proof.Machine

/-- The decode event record (R73). -/
inductive Event
  /-- Kind code 0: a copy of the `L` frame bytes (R162). -/
  | validFrame (bytes : List Byte)
  /-- Kind code 1: a false header abandoned (R163). -/
  | resync (skippedByteCount : Nat)
  deriving DecidableEq, Repr

/-- Where the decoder is in a `FEED` (R27, R130). -/
inductive Phase
  /-- Quiescent: no `FEED` in progress. -/
  | idle
  /-- Chunk appended, `CUR <- 0` done, the scan loop (R117) running. -/
  | scanning
  /-- The scan loop has stopped (`SCAN.SHORT` or `SCAN.WAIT`); the compaction of R48 is next. -/
  | stopped
  deriving DecidableEq, Repr

/-- What the host can present to the block (assumption 7). -/
inductive HostOp
  /-- A 3-bit command identifier at the encoder's port (R72, R90). -/
  | command (bits : BitVec 3)
  /-- `FEED c` as the one atomic transition of R5 and R130. -/
  | feed (chunk : List Byte)
  /-- `FEED c` taken one scan step at a time, so that what arrives during it can be shown (R55, R182). -/
  | feedStepwise (chunk : List Byte)
  /-- `RESET` (R133). -/
  | reset
  /-- A reset request and a `FEED` presented together (R169). -/
  | resetWithFeed (chunk : List Byte)
  deriving DecidableEq, Repr

/-- One host operation and when it is presented: at once where the decoder is quiescent; during a `FEED` in progress,
after `after` more of the decoder's own steps (assumption 7). -/
structure Request where
  after : Nat
  op : HostOp
  deriving DecidableEq, Repr

/-- The machine's state. -/
structure State where
  /-- The static parameters (R8, R9); no operation writes them (assumption 2). -/
  cfg : Config
  /-- `BUF[0..FILL)`; its length is `FILL` (R21). -/
  buf : List Byte
  /-- `CUR`, the scan cursor (R23). -/
  cur : Nat
  /-- Whether a `FEED` is in progress, and how far it is. -/
  phase : Phase
  /-- Every event emitted so far, oldest first (R51, R161; assumption 6). -/
  events : List Event
  /-- Every byte string the encoder has returned so far, oldest first (R90; assumption 6). -/
  encOut : List (List Byte)
  /-- What the host presents, oldest first (assumption 7). -/
  inbox : List Request
  deriving DecidableEq, Repr

/-- The block has no faults: "No operation of the block can fail, trap, or leave the block in an error state" (R160).
So there is no constructor: nobody raises a fault, and none can be raised (safe: it is the spec's own statement). -/
inductive Fault
  deriving DecidableEq, Repr

/-- The model's refusals. All are safe: the machine stops where the contract of the spec gives no step. -/
inductive Refusal
  /-- Raised by an arm of `exec` whose instruction has no meaning yet (safe); no arm raises it. -/
  | notModelled (mnemonic : String)
  /-- Raised by `FEED` while a `FEED` is in progress on the same decoder: "a model gives such a schedule no step
  (`refuse`)" (R54, R132 (b), U1). Safe. -/
  | overlappingFeed
  /-- Raised by `FEED` with more than `MAX_CHUNK` bytes: "outside the contract and a model refuses it" (R132, U11).
  Safe. -/
  | chunkTooLong
  /-- Raised by a scan step where no `FEED` is scanning: a scan step is part of a `FEED` (R5, R117). Safe. -/
  | noScanInProgress
  /-- Raised by a scan step at a window for which R65 selects another one, or the same one with another length: "for
  every state ... exactly one row applies" (R66). Safe. -/
  | stepNotSelected
  deriving DecidableEq, Repr

/-- `FILL`, the number of valid bytes in `BUF` (R22). -/
abbrev State.fill (s : State) : Nat := s.buf.length

/-- Power-on (R30, R180): `FILL = 0`, `CUR = 0`, no operation in progress, nothing put out, nothing presented; the
default build (R8, assumption 2). -/
def State.reset : State :=
  { cfg := Config.standard, buf := [], cur := 0, phase := .idle, events := [], encOut := [], inbox := [] }

end Sys2Proof.Machine
end

