-- ==== Sys2Proof/Machine/Operands.lean ====
section
/-! DEFINITION. What an operation reads: single bytes and numbers of `BUF`, the window at the cursor, the frame copy
(spec/20_memory.md R40 to R49, 41_decoder_scan.md R110), and the views of an event record (30_encoding.md R62, R73). -/

namespace Sys2Proof.Machine

/-- `BUF[a]`: a value only for `a < FILL`; an offset at or past `FILL` reads as nothing (R31, assumption 5). -/
def State.readByte (s : State) (a : Nat) : Option Byte := s.buf[a]?

/-- `MemRead(a, n)` on `BUF` (R40). -/
def State.memRead (s : State) (a n : Nat) : Option Nat := readBE s.buf a n

/-- The window `BUF[CUR..FILL)` that a scan step may read (R110). -/
def State.window (s : State) : List Byte := s.buf.drop s.cur

/-- `BUF[CUR..CUR+L)`: a copy, byte by byte in increasing address order (R40, R29). -/
def State.frameAt (s : State) (L : Nat) : List Byte := s.window.take L

/-- The scan step that R65 selects at the cursor. -/
def State.selected (s : State) : ScanStep := decodeScan s.cfg.maxLen s.window

/-- The buffer as address and byte pairs, address 0 first: an offset not listed holds nothing (R26, R31). -/
def bufferCells (buf : List Byte) : List Host.Cell := (List.range buf.length).zip buf

/-- The one canonical form of a list of cells: addresses strictly rising from the front. -/
def Memory.wf : List Host.Cell → Bool
  | [] => true
  | [_] => true
  | a :: b :: rest => decide (a.1 < b.1) && Memory.wf (b :: rest)

/-! Views of an event record (R62, R73). They are derived from the frame's bytes and not stored. -/

/-- The kind code of an event (R73, R161). -/
def Event.kind : Event → BitVec 1
  | .validFrame _ => 0
  | .resync _ => 1

/-- `header = bytes[0..2)`. -/
def frameHeader (f : List Byte) : List Byte := f.take 2

/-- The value of the length field, bytes 2 and 3 (R61). -/
def frameLength (f : List Byte) : Option Nat := readBE f 2 2

/-- `payload = bytes[4..L-2)`. -/
def framePayload (f : List Byte) : List Byte := (f.drop 4).take (f.length - SKELETON)

/-- `command = bytes[4]` if `L ≥ 7`, else absent (D18). -/
def frameCommand (f : List Byte) : Option Byte := (framePayload f).head?

/-- `footer = bytes[L-2..L)`. -/
def frameFooter (f : List Byte) : List Byte := f.drop (f.length - 2)

end Sys2Proof.Machine
end

