-- ==== Sys2Proof/Machine/Flags.lean ====
section
/-! DEFINITION. The block has no status flags or condition codes (spec/10_state.md R24). What takes their place are the
conditions of 41_decoder_scan.md R110, evaluated afresh at each scan step from `BUF`, `CUR` and `FILL` and never stored:
`W`, `hdr`, `L`, `ftr`. They are written here as the spec writes them, by `MemRead` at offsets of `BUF`, and so is the
selection table of 30_encoding.md R65 in these terms; that the decoder's reading of the window agrees is stated in
Certificates. -/

namespace Sys2Proof.Machine

/-- `W = FILL - CUR`: the bytes available at and after the cursor. -/
def State.avail (s : State) : Nat := s.fill - s.cur

/-- `hdr`: `BUF[CUR] = 0xC8` and `BUF[CUR+1] = 0x8C`. -/
abbrev State.hdr (s : State) : Prop := s.memRead s.cur 1 = some 0xC8 ∧ s.memRead (s.cur + 1) 1 = some 0x8C

/-- `L = MemRead(CUR+2, 2)`. -/
abbrev State.lenIs (s : State) (len : Len) : Prop := s.memRead (s.cur + 2) 2 = some len.toNat

/-- `ftr`: `BUF[CUR+L-2] = 0x0D` and `BUF[CUR+L-1] = 0x0A`. -/
abbrev State.ftr (s : State) (len : Len) : Prop :=
  s.memRead (s.cur + len.toNat - 2) 1 = some 0x0D ∧ s.memRead (s.cur + len.toNat - 1) 1 = some 0x0A

/-- `MIN_LEN ≤ L ≤ MAX_LEN`. -/
abbrev State.inRange (s : State) (len : Len) : Prop := MIN_LEN ≤ len.toNat ∧ len.toNat ≤ s.cfg.maxLen

/-- The condition of each row of R65, for a row with a length field the length it reads. -/
abbrev State.rowApplies (s : State) : ScanStep → Prop
  | .short => s.avail < SKELETON
  | .skip1 => SKELETON ≤ s.avail ∧ ¬ s.hdr
  | .badlen len => SKELETON ≤ s.avail ∧ s.hdr ∧ s.lenIs len ∧ ¬ s.inRange len
  | .wait len => SKELETON ≤ s.avail ∧ s.hdr ∧ s.lenIs len ∧ s.inRange len ∧ s.fill < s.cur + len.toNat
  | .emit len =>
    SKELETON ≤ s.avail ∧ s.hdr ∧ s.lenIs len ∧ s.inRange len ∧ s.cur + len.toNat ≤ s.fill ∧ s.ftr len
  | .resync2 len =>
    SKELETON ≤ s.avail ∧ s.hdr ∧ s.lenIs len ∧ s.inRange len ∧ s.cur + len.toNat ≤ s.fill ∧ ¬ s.ftr len

end Sys2Proof.Machine
end

