-- ==== Sys2Proof/Machine/Ops.lean ====
section
/-! DEFINITION. The operations that instructions share. Each is one change of the state; the meanings of the
instructions are written over them. -/

namespace Sys2Proof.Machine

/-- `CUR <- CUR + n` (R23). -/
def State.advance (n : Nat) (s : State) : State := { s with cur := s.cur + n }

/-- `emit E`: append to the ordered output (R13, R161). -/
def State.emit (e : Event) (s : State) : State := { s with events := s.events ++ [e] }

/-- What an event does, the block's only analogue of taking an exception (R170): the record goes out and the cursor
moves past the bytes it disposes of; "Nothing is saved, no mode changes", and the scan goes on (R171: there is no
return). -/
def State.takeEvent (e : Event) (n : Nat) (s : State) : State := (s.emit e).advance n

/-- `stop`: the scan loop of the `FEED` in progress is over (R13, R117). -/
def State.stop (s : State) : State := { s with phase := .stopped }

/-- The append of R47 and `CUR <- 0`, with which a `FEED` begins (R130). -/
def State.startFeed (c : List Byte) (s : State) : State :=
  { s with buf := s.buf ++ c, cur := 0, phase := .scanning }

/-- The compaction of R48 and `CUR <- 0`, with which a `FEED` ends (R130). -/
def State.finishFeed (s : State) : State :=
  { s with buf := s.buf.drop s.cur, cur := 0, phase := .idle }

/-- `FILL <- 0; CUR <- 0` (R133); a `FEED` in progress is abandoned (R182). -/
def State.clear (s : State) : State := { s with buf := [], cur := 0, phase := .idle }

/-- The encoder returns a byte string to the host (R90). -/
def State.answer (bs : List Byte) (s : State) : State := { s with encOut := s.encOut ++ [bs] }

/-- The contract of `FEED` (R132 (a), (b)): refused while a `FEED` is in progress or above `MAX_CHUNK`. -/
def feedGuard (c : List Byte) (s t : State) : Host.Outcome State Fault Refusal :=
  if s.phase = .idle then
    if s.cfg.allowsChunk c.length then .next t else .refused .chunkTooLong
  else .refused .overlappingFeed

/-- A scan step runs only inside a scan and only where R65 selects it. -/
def scanGuard (k : ScanStep) (s t : State) : Host.Outcome State Fault Refusal :=
  if s.phase = .scanning then
    if s.selected = k then .next t else .refused .stepNotSelected
  else .refused .noScanInProgress

end Sys2Proof.Machine
end

