-- ==== Sys2Proof/Machine/Scan.lean ====
section
/-! DEFINITION. The six scan steps (spec/41_decoder_scan.md R111 to R116) and the scan loop (R117). The effect of a
step is written once; the instruction's meaning is that effect where R65 selects the step, and the loop repeats the
effect of the selected step. -/

namespace Sys2Proof.Machine

/-- `stop`; no event, `CUR` unchanged (R111). -/
def shortEffect (s : State) : State := s.stop

/-- `CUR <- CUR + 1`; no event (R112, R165). -/
def skip1Effect (s : State) : State := s.advance 1

/-- `emit Resync(2); CUR <- CUR + 2` (R113). -/
def badlenEffect (s : State) : State := s.takeEvent (.resync RESYNC_SKIP) RESYNC_SKIP

/-- `stop`; no event, `CUR` unchanged (R114). -/
def waitEffect (s : State) : State := s.stop

/-- `emit ValidFrame(BUF[CUR..CUR+L)); CUR <- CUR + L` (R115). -/
def emitEffect (len : Len) (s : State) : State := s.takeEvent (.validFrame (s.frameAt len.toNat)) len.toNat

/-- `emit Resync(2); CUR <- CUR + 2` (R116). -/
def resync2Effect (s : State) : State := s.takeEvent (.resync RESYNC_SKIP) RESYNC_SKIP

/-- `SCAN.SHORT` (R111). -/
def execScanShort (s : State) : Host.Outcome State Fault Refusal := scanGuard .short s (shortEffect s)

/-- `SCAN.SKIP1` (R112). -/
def execScanSkip1 (s : State) : Host.Outcome State Fault Refusal := scanGuard .skip1 s (skip1Effect s)

/-- `SCAN.BADLEN` (R113). -/
def execScanBadlen (len : Len) (s : State) : Host.Outcome State Fault Refusal :=
  scanGuard (.badlen len) s (badlenEffect s)

/-- `SCAN.WAIT` (R114). -/
def execScanWait (len : Len) (s : State) : Host.Outcome State Fault Refusal :=
  scanGuard (.wait len) s (waitEffect s)

/-- `SCAN.EMIT` (R115). -/
def execScanEmit (len : Len) (s : State) : Host.Outcome State Fault Refusal :=
  scanGuard (.emit len) s (emitEffect len s)

/-- `SCAN.RESYNC2` (R116). -/
def execScanResync2 (len : Len) (s : State) : Host.Outcome State Fault Refusal :=
  scanGuard (.resync2 len) s (resync2Effect s)

/-- The effect of each step. -/
def scanEffect : ScanStep → State → State
  | .short, s => shortEffect s
  | .skip1, s => skip1Effect s
  | .badlen _, s => badlenEffect s
  | .wait _, s => waitEffect s
  | .emit len, s => emitEffect len s
  | .resync2 _, s => resync2Effect s

/-- The scan loop of R117 with a bound on its steps: the selected step again and again until one stops it. By R118 a
bound of `FILL + 1` steps is never the reason that it ends. -/
def scanLoop : Nat → State → State
  | 0, s => s
  | n + 1, s => if s.phase = .scanning then scanLoop n (scanEffect s.selected s) else s

end Sys2Proof.Machine
end

