-- ==== Sys2Proof/Machine/Decoder.lean ====
section
/-! DEFINITION. The host's two operations on the decoder: `FEED` (spec/42_decoder_ops.md R130) and `RESET` (R133). -/

namespace Sys2Proof.Machine

/-- The whole of R130's pseudocode: append, `CUR <- 0`, scan, compact, `CUR <- 0`. -/
def feedResult (c : List Byte) (s : State) : State :=
  (scanLoop (s.fill + c.length + 1) (s.startFeed c)).finishFeed

/-- `FEED c` (R130), within its contract (R132). -/
def execFeed (c : List Byte) (s : State) : Host.Outcome State Fault Refusal := feedGuard c s (feedResult c s)

/-- `RESET` (R133); during a `FEED` it is the reset of R182, which leaves the events emitted so far delivered. -/
def execReset (s : State) : Host.Outcome State Fault Refusal := .next s.clear

end Sys2Proof.Machine
end

