-- ==== Sys2Proof/Machine/Catalog.lean ====
section
/-! DEFINITION. The command catalog `CMD_BYTES[0..7]` (spec/10_state.md R25, 40_encoder.md R90 to R100): a constant
table of eight byte strings. One entry is the spec's; the other seven are free (Config), constrained to the frames that
R91 and R100 admit. -/

namespace Sys2Proof.Machine

/-- The identifiers whose frames the spec does not give (R11). -/
def unknownCommands : List CmdId :=
  [.scanContinuous, .scanSingle, .scanStop, .getHardwareVersion, .getFirmwareVersion, .getDeviceId, .getAntennaStatus]

/-- The unknown entry whose trailing byte is `0x22` (R100); which one it is, is free. -/
def command22 : CmdId := unknownCommands.getD (Config.trailer22 % 7) .scanContinuous

/-- The unknown entry whose trailing byte is `0x84` (R100): free among those that do not end in `0x22`. -/
def command84 : CmdId :=
  unknownCommands.getD ((Config.trailer22 + 1 + Config.trailer84 % 6) % 7) .scanContinuous

/-- The trailing payload byte, frame offset `n - 3`, of an unknown entry (R63, R100). -/
def trailerOf (id : CmdId) : Byte :=
  if id = command22 then 0x22 else if id = command84 then 0x84 else Config.cmdTrailer id

/-- The payload of an unknown entry: a command byte, free bytes and a trailing byte, so that the frame has at least
the 8 bytes of R100 and at most the 65535 of R60. -/
def payloadOf (id : CmdId) : List Byte :=
  Config.cmdOpcode id :: (Config.cmdMiddle id).take 65527 ++ [trailerOf id]

/-- `CMD_BYTES[id]`: the literal of R98, or a frame around the free payload, which is every byte string that R91 and
R100 admit for an unknown entry. -/
def cmdBytes : CmdId → List Byte
  | .scanContinuous => frameOf (payloadOf .scanContinuous)
  | .scanSingle => frameOf (payloadOf .scanSingle)
  | .scanStop => frameOf (payloadOf .scanStop)
  | .getHardwareVersion => frameOf (payloadOf .getHardwareVersion)
  | .getFirmwareVersion => frameOf (payloadOf .getFirmwareVersion)
  | .getDeviceId => frameOf (payloadOf .getDeviceId)
  | .getTransmitPower => [0xC8, 0x8C, 0x00, 0x08, 0x12, 0x1A, 0x0D, 0x0A]
  | .getAntennaStatus => frameOf (payloadOf .getAntennaStatus)

/-- The catalog address space (R26): the byte at an offset of an entry. -/
def catalogByte (id : CmdId) (offset : Nat) : Option Byte := (cmdBytes id)[offset]?

end Sys2Proof.Machine
end

