-- ==== Sys2Proof/Machine/Encoder.lean ====
section
/-! DEFINITION. The eight `ENC.*` operations (spec/40_encoder.md R90 to R99): each returns its catalog entry, reads no
state, changes nothing but what has been returned, and always succeeds, a `FEED` in progress or not (R55). -/

namespace Sys2Proof.Machine

/-- `ENC.SCANC`: `return CMD_BYTES[0]` (R92). -/
def execEncScanc (s : State) : Host.Outcome State Fault Refusal := .next (s.answer (cmdBytes .scanContinuous))

/-- `ENC.SCAN1`: `return CMD_BYTES[1]` (R93). -/
def execEncScan1 (s : State) : Host.Outcome State Fault Refusal := .next (s.answer (cmdBytes .scanSingle))

/-- `ENC.STOP`: `return CMD_BYTES[2]` (R94). -/
def execEncStop (s : State) : Host.Outcome State Fault Refusal := .next (s.answer (cmdBytes .scanStop))

/-- `ENC.HWVER`: `return CMD_BYTES[3]` (R95). -/
def execEncHwver (s : State) : Host.Outcome State Fault Refusal := .next (s.answer (cmdBytes .getHardwareVersion))

/-- `ENC.FWVER`: `return CMD_BYTES[4]` (R96). -/
def execEncFwver (s : State) : Host.Outcome State Fault Refusal := .next (s.answer (cmdBytes .getFirmwareVersion))

/-- `ENC.DEVID`: `return CMD_BYTES[5]` (R97). -/
def execEncDevid (s : State) : Host.Outcome State Fault Refusal := .next (s.answer (cmdBytes .getDeviceId))

/-- `ENC.TXPWR`: `return CMD_BYTES[6]` (R98). -/
def execEncTxpwr (s : State) : Host.Outcome State Fault Refusal := .next (s.answer (cmdBytes .getTransmitPower))

/-- `ENC.ANT`: `return CMD_BYTES[7]` (R99). -/
def execEncAnt (s : State) : Host.Outcome State Fault Refusal := .next (s.answer (cmdBytes .getAntennaStatus))

end Sys2Proof.Machine
end

