-- ==== Sys2Proof/Machine/Dispatch.lean ====
section
/-! DEFINITION. One arm for each operation of the opcode table, in the table's order. -/

namespace Sys2Proof.Machine

def exec (i : Instr) (s : State) : Host.Outcome State Fault Refusal :=
  match i with
  | .encScanc => Sys2Proof.Machine.execEncScanc s
  | .encScan1 => Sys2Proof.Machine.execEncScan1 s
  | .encStop => Sys2Proof.Machine.execEncStop s
  | .encHwver => Sys2Proof.Machine.execEncHwver s
  | .encFwver => Sys2Proof.Machine.execEncFwver s
  | .encDevid => Sys2Proof.Machine.execEncDevid s
  | .encTxpwr => Sys2Proof.Machine.execEncTxpwr s
  | .encAnt => Sys2Proof.Machine.execEncAnt s
  | .scanShort => Sys2Proof.Machine.execScanShort s
  | .scanSkip1 => Sys2Proof.Machine.execScanSkip1 s
  | .scanBadlen len => Sys2Proof.Machine.execScanBadlen len s
  | .scanWait len => Sys2Proof.Machine.execScanWait len s
  | .scanEmit len => Sys2Proof.Machine.execScanEmit len s
  | .scanResync2 len => Sys2Proof.Machine.execScanResync2 len s
  | .feed chunk => Sys2Proof.Machine.execFeed chunk s
  | .reset => Sys2Proof.Machine.execReset s

end Sys2Proof.Machine
end

