-- ==== Sys2Proof/Machine/Fetch.lean ====
section
/-! DEFINITION. What the machine does next, and where it reads it from. Two agents drive it: the host, through what it
presents (`inbox`), and the decoder, which while a `FEED` is in progress goes on by itself with the step that the bytes
at `CUR` select (spec/41_decoder_scan.md: "`CUR` of a program counter, and a scan step of an instruction"). -/

namespace Sys2Proof.Machine

/-- What one step of the machine does. -/
inductive Action
  /-- Run an operation of the opcode table. -/
  | run (i : Instr)
  /-- Begin a `FEED` that is taken one scan step at a time. -/
  | beginFeed (chunk : List Byte)
  /-- End the `FEED` in progress: its compaction (R48). -/
  | endFeed
  /-- Nothing: "it does nothing until the host issues an operation" (R180). -/
  | rest
  deriving DecidableEq, Repr

/-- A host operation taken up. Where a reset request comes together with a `FEED`, "reset wins" (R169, D14): the
`FEED` has no effect (assumption 10). -/
def serve (s : State) : HostOp → Action
  | .command bits => .run (decode s.cfg.maxLen (.command bits))
  | .feed chunk => .run (decode s.cfg.maxLen (.hostFeed chunk))
  | .feedStepwise chunk => .beginFeed chunk
  | .reset => .run (decode s.cfg.maxLen .hostReset)
  | .resetWithFeed _ => .run (decode s.cfg.maxLen .hostReset)

/-- The decoder's own next move. -/
def ownAction (s : State) : Action :=
  match s.phase with
  | .idle => .rest
  | .scanning => .run (decode s.cfg.maxLen (.window s.window))
  | .stopped => .endFeed

/-- The next action, and the state with what it takes out of the inbox taken out. -/
def fetch (s : State) : Action × State :=
  match s.inbox with
  | [] => (ownAction s, s)
  | r :: rest =>
    if s.phase = .idle ∨ r.after = 0 then (serve s r.op, { s with inbox := rest })
    else (ownAction s, { s with inbox := { r with after := r.after - 1 } :: rest })

/-- A `FEED` taken step by step begins, within the same contract (R132). -/
def beginFeed (c : List Byte) (s : State) : Host.Outcome State Fault Refusal := feedGuard c s (s.startFeed c)

/-- The code of a table word placed where the next `fetch` reads it: a command code at the encoder's port, ready at
once; a window at the cursor of a `FEED` in progress, with nothing presented by the host (assumptions 7 and 8). A byte
above 7 is no command code and places nothing. -/
def placeWord (s : State) (nbits w : Nat) : State :=
  if nbits = 8 then
    if w < 8 then { s with inbox := { after := 0, op := .command (BitVec.ofNat 3 w) } :: s.inbox } else s
  else { s with buf := tableWindow nbits w, cur := 0, phase := .scanning, inbox := [] }

end Sys2Proof.Machine
end

