-- ==== Sys2Proof/Machine/Step.lean ====
section
/-! DEFINITION. One step of the machine: fetch the next action and do it. -/

namespace Sys2Proof.Machine

/-- What an action does. -/
def perform (a : Action) (s : State) : Host.Outcome State Fault Refusal :=
  match a with
  | .run i => exec i s
  | .beginFeed c => beginFeed c s
  | .endFeed => .next s.finishFeed
  | .rest => .next s

/-- One step. -/
def step (s : State) : Host.Outcome State Fault Refusal := perform (fetch s).1 (fetch s).2

/-- `s` with the opcode-table word `w` of `nbits` bits placed where `step` fetches its next instruction. -/
def State.withFetchWord (s : State) (nbits w : Nat) : State := placeWord s nbits w

end Sys2Proof.Machine
end

