-- ==== Sys2Proof/Safety.lean ====
section
/-! DEFINITION. The terms in which claims about the machine are made: valid frames, the quiescent shape of the buffer,
the invariant of the machine, runs of operations, and the classes of stream bytes. -/

namespace Sys2Proof.Machine

/-- A valid frame, as a byte string of its own (spec/30_encoding.md R64, 40_encoder.md R91). -/
def isFrame (maxLen : Nat) (f : List Byte) : Bool :=
  decide (MIN_LEN ≤ f.length) && decide (f.length ≤ maxLen) && (frameHeader f == HEADER)
    && (frameLength f == some f.length) && (frameFooter f == FOOTER)

/-- An event that the block may emit (R162, R163). -/
def Event.proper (maxLen : Nat) : Event → Bool
  | .validFrame f => isFrame maxLen f
  | .resync n => n == 2

/-- The stream bytes that an event accounts for (R137): the frame's, or the two skipped. -/
def Event.byteCount : Event → Nat
  | .validFrame f => f.length
  | .resync n => n

/-- Case (b) of R27: the buffer begins with the header and an accepted length that reaches past its end. -/
abbrev incompleteFrame (maxLen : Nat) (buf : List Byte) : Prop :=
  SKELETON ≤ buf.length ∧ hasHeader buf = true ∧ MIN_LEN ≤ (declaredLen buf).toNat
    ∧ (declaredLen buf).toNat ≤ maxLen ∧ buf.length < (declaredLen buf).toNat

/-- R27: the decoder is quiescent and its tail is fewer than 6 bytes or an incomplete frame. -/
abbrev State.quiescent (s : State) : Prop :=
  s.phase = .idle ∧ s.cur = 0 ∧ (s.fill ≤ 5 ∨ incompleteFrame s.cfg.maxLen s.buf)

/-- R22, R138: `FILL ≤ BUF_CAP`, where the build has a capacity. -/
abbrev State.withinCap (s : State) : Prop := s.cfg.bufCap.all (fun cap => decide (s.fill ≤ cap)) = true

/-- The invariant of the machine: the parameters are legal (R8, R9); between `FEED`s the state is quiescent (R27);
during one, the cursor is in the buffer (R23) and the buffer within its capacity (R138). -/
abbrev State.inv (s : State) : Prop :=
  s.cfg.legal = true ∧ s.withinCap ∧ (s.phase = .idle → s.quiescent) ∧ s.cur ≤ s.fill
    ∧ (s.phase = .stopped → s.selected.stops = true)

/-- A sequence of operations, each from the state the one before left. -/
def execAll : List Instr → State → Host.Outcome State Fault Refusal
  | [], s => .next s
  | i :: is, s =>
    match exec i s with
    | .next t => execAll is t
    | .fault r => .fault r
    | .refused r => .refused r

/-- `ks` are the scan steps that lead from `s` to `t`, each run as the operation it is. -/
def scanPath (s : State) (ks : List ScanStep) (t : State) : Prop :=
  execAll (ks.map ScanStep.instr) s = .next t

/-- The three classes of stream bytes that a scan disposes of (R137); the fourth is the tail. -/
inductive Piece
  /-- Inside an emitted frame. -/
  | frame (bytes : List Byte)
  /-- The two bytes skipped by a `Resync`. -/
  | resynced
  /-- A byte skipped silently by `SCAN.SKIP1`. -/
  | skipped (b : Byte)
  deriving DecidableEq, Repr

/-- The stream bytes of a piece; a `Resync` skips exactly the header bytes (R163). -/
def Piece.bytes : Piece → List Byte
  | .frame f => f
  | .resynced => HEADER
  | .skipped b => [b]

/-- The event of a piece; a silent skip has none (R165). -/
def Piece.event : Piece → Option Event
  | .frame f => some (.validFrame f)
  | .resynced => some (.resync 2)
  | .skipped _ => none

/-- No two neighbouring bytes are `C8 8C` (R140). -/
def noHeaderPair : List Byte → Bool
  | [] => true
  | [_] => true
  | a :: b :: rest => !(a == 0xC8 && b == 0x8C) && noHeaderPair (b :: rest)

end Sys2Proof.Machine
end

