-- ==== Sys2Proof/Certificates/Slice0/Obligations.lean ====
section
/-! DEFINITION. The statements for the provers. Each is a sentence about the machine that spec/ gives, in the order:
encodings, reads, the scan steps, the host's operations, the laws of the stream, the whole machine. -/

open Sys2Proof Sys2Proof.Machine

/-! ## Encodings -/

/-- R72: the eight 3-bit codes, all used, each the code of one identifier and of one `ENC.*` operation, in the order of
R72's table. -/
def Obligations.CommandCodesAreTheEightIdentifiers : Prop :=
  (∀ bits : BitVec 3, (decodeCommand bits).code = bits) ∧ (∀ id : CmdId, decodeCommand id.code = id) ∧
  decodeCommand 0b000 = .scanContinuous ∧ decodeCommand 0b001 = .scanSingle ∧ decodeCommand 0b010 = .scanStop ∧
  decodeCommand 0b011 = .getHardwareVersion ∧ decodeCommand 0b100 = .getFirmwareVersion ∧
  decodeCommand 0b101 = .getDeviceId ∧ decodeCommand 0b110 = .getTransmitPower ∧
  decodeCommand 0b111 = .getAntennaStatus ∧
  ∀ m : Nat, decode m (.command 0b000) = .encScanc ∧ decode m (.command 0b001) = .encScan1 ∧
    decode m (.command 0b010) = .encStop ∧ decode m (.command 0b011) = .encHwver ∧
    decode m (.command 0b100) = .encFwver ∧ decode m (.command 0b101) = .encDevid ∧
    decode m (.command 0b110) = .encTxpwr ∧ decode m (.command 0b111) = .encAnt

/-- Words written out from R65 and R72: a command code of each value; windows with the bytes of V7, V13, V16b, V22, V24
and V8 of spec/95_test_vectors.md. How a table word stands for a code is the model's choice, assumption 8 (DESIGN
CHOICE): that an 8-bit word above 7 is refused, and that a window of 4 bytes is completed with zeros to 6 (by R169 the
four bytes alone would be `SCAN.SHORT`). -/
def Obligations.WrittenWordsDecode : Prop :=
  decodeTableWord 8 0 = some .encScanc ∧ decodeTableWord 8 1 = some .encScan1 ∧ decodeTableWord 8 2 = some .encStop ∧
  decodeTableWord 8 3 = some .encHwver ∧ decodeTableWord 8 4 = some .encFwver ∧ decodeTableWord 8 5 = some .encDevid ∧
  decodeTableWord 8 6 = some .encTxpwr ∧ decodeTableWord 8 7 = some .encAnt ∧ decodeTableWord 8 8 = none ∧
  decodeTableWord 32 0xC88C0005 = some (.scanBadlen 5) ∧
  decodeTableWord 32 0xC88CC800 = some (.scanWait 51200) ∧
  decodeTableWord 48 0xC88C00060D0A = some (.scanEmit 6) ∧
  decodeTableWord 64 0xC88C0008121A0A0D = some (.scanResync2 8) ∧
  decodeTableWord 48 0x010203040506 = some .scanSkip1 ∧
  decode 65535 (.window [0xC8, 0x8C, 0x00, 0x08, 0x12]) = .scanShort

/-- For every build and every instruction that can occur in it, with every operand, the decoder reads the instruction
back from the encoder's code (30_encoding.md; the code's bytes that no row names are the model's, assumption 11). -/
def Obligations.DecodeReadsBackEveryInstruction : Prop :=
  ∀ (c : Config) (i : Instr), c.legal = true → i.wellFormed c = true → decode c.maxLen (encode i) = i

/-- The first 32 bits of a window, byte `CUR` first, against the rows' match, mask and length field (R65): a step with
a length is read only from `C8 8C` and that length, and `SKIP1` only where the first 16 bits are not `C8 8C`. -/
def Obligations.WindowWordFixesTheStep : Prop :=
  ∀ (m : Nat) (w : List Byte),
    (∀ len, decodeScan m w = .badlen len ∨ decodeScan m w = .wait len ∨ decodeScan m w = .emit len ∨
        decodeScan m w = .resync2 len → w.take 4 = HEADER ++ lenBytes len) ∧
    (decodeScan m w = .skip1 → 6 ≤ w.length ∧ w.take 2 ≠ HEADER)

/-- R60: the frame format. A valid frame of any build is 6 to 65535 bytes: the header, its own length big-endian, its
payload and the footer; and every payload of at most 65529 bytes gives one in the default build. -/
def Obligations.FrameFormatIsExact : Prop :=
  (∀ (m : Nat) (f : List Byte), isFrame m f = true → 6 ≤ f.length ∧ f.length ≤ 65535 ∧
    f = [0xC8, 0x8C] ++ lenBytes (BitVec.ofNat 16 f.length) ++ framePayload f ++ [0x0D, 0x0A]) ∧
  (∀ payload : List Byte, payload.length ≤ 65529 →
    isFrame 65535 (frameOf payload) = true ∧ framePayload (frameOf payload) = payload)

/-- R62: the payload is the `L - 6` bytes at offsets `4..L-2` and includes the command byte, which is absent when
`L = 6`. -/
def Obligations.PayloadIncludesTheCommandByte : Prop :=
  ∀ (m : Nat) (f : List Byte), isFrame m f = true →
    (framePayload f).length = f.length - 6 ∧
    (∀ j, j < f.length - 6 → (framePayload f)[j]? = f[4 + j]?) ∧
    (f.length = 6 → framePayload f = [] ∧ frameCommand f = none) ∧
    (7 ≤ f.length → frameCommand f = f[4]? ∧ frameCommand f ≠ none)

/-! ## Reads -/

/-- R40: `MemRead` of one and of two bytes, most significant byte first, defined only within `FILL`; the frame copy is
single-byte reads in increasing address order. -/
def Obligations.MemReadIsBigEndian : Prop :=
  ∀ (s : State) (a : Nat),
    (∀ b, s.readByte a = some b → s.memRead a 1 = some b.toNat) ∧
    (∀ b0 b1, s.readByte a = some b0 → s.readByte (a + 1) = some b1 →
      s.memRead a 2 = some (256 * b0.toNat + b1.toNat)) ∧
    (∀ n, s.memRead a n = none ↔ s.fill < a + n) ∧
    (∀ L, s.cur + L ≤ s.fill → (s.frameAt L).length = L ∧ ∀ j, j < L → (s.frameAt L)[j]? = s.readByte (s.cur + j))

/-- R49: what a scan step reads is there. The header and length reads are in bounds once 6 bytes are available; the
footer reads lie behind the length field and in bounds once the length is in range and complete. -/
def Obligations.ScanReadsAreInBounds : Prop :=
  ∀ s : State, 6 ≤ s.avail →
    (s.memRead s.cur 1).isSome = true ∧ (s.memRead (s.cur + 1) 1).isSome = true ∧
    (s.memRead (s.cur + 2) 2).isSome = true ∧
    ∀ len : Len, s.lenIs len → s.inRange len → s.cur + len.toNat ≤ s.fill →
      s.cur + 4 ≤ s.cur + len.toNat - 2 ∧ (s.memRead (s.cur + len.toNat - 2) 1).isSome = true ∧
      (s.memRead (s.cur + len.toNat - 1) 1).isSome = true

/-! ## Scan steps -/

/-- R65: the step selected at the cursor is the one whose row applies, in the spec's terms `W`, `hdr`, `L`, `ftr` over
offsets of `BUF`. -/
def Obligations.SelectedStepIsTheRowThatApplies : Prop :=
  ∀ s : State, s.cur ≤ s.fill → ∀ k : ScanStep, s.selected = k ↔ s.rowApplies k

/-- R66: for every state with `0 ≤ CUR ≤ FILL` exactly one row applies. -/
def Obligations.ExactlyOneRowApplies : Prop :=
  ∀ s : State, s.cur ≤ s.fill → ∃ k : ScanStep, s.rowApplies k ∧ ∀ k' : ScanStep, s.rowApplies k' → k' = k

/-- R111: where `W < 6`, `SCAN.SHORT` stops the scan and changes nothing else, whatever the bytes are. -/
def Obligations.ScanShortStopsAndKeepsTheBytes : Prop :=
  ∀ s : State, s.phase = .scanning → s.cur ≤ s.fill → s.fill - s.cur < 6 →
    exec .scanShort s = .next { s with phase := .stopped }

/-- R112: where `W ≥ 6` and the header is not there, `SCAN.SKIP1` advances one byte without an event; one differing
byte is enough. -/
def Obligations.ScanSkip1AdvancesOneByteSilently : Prop :=
  ∀ s : State, s.phase = .scanning → s.cur ≤ s.fill → 6 ≤ s.fill - s.cur →
    (s.readByte s.cur ≠ some 0xC8 ∨ s.readByte (s.cur + 1) ≠ some 0x8C) →
    exec .scanSkip1 s = .next { s with cur := s.cur + 1 }

/-- R113: a header whose length is below `MIN_LEN` or above `MAX_LEN` gives `Resync(2)` and an advance of 2, whatever
stands where a footer would be. -/
def Obligations.ScanBadlenResyncsByTwo : Prop :=
  ∀ (s : State) (len : Len), s.phase = .scanning → s.cur ≤ s.fill → 6 ≤ s.fill - s.cur →
    s.readByte s.cur = some 0xC8 → s.readByte (s.cur + 1) = some 0x8C → s.memRead (s.cur + 2) 2 = some len.toNat →
    (len.toNat < 6 ∨ s.cfg.maxLen < len.toNat) →
    exec (.scanBadlen len) s = .next { s with events := s.events ++ [.resync 2], cur := s.cur + 2 }

/-- R114: a header whose accepted length reaches past `FILL` stops the scan and changes nothing else. -/
def Obligations.ScanWaitStopsAndKeepsTheBytes : Prop :=
  ∀ (s : State) (len : Len), s.phase = .scanning → s.cur ≤ s.fill → 6 ≤ s.fill - s.cur →
    s.readByte s.cur = some 0xC8 → s.readByte (s.cur + 1) = some 0x8C → s.memRead (s.cur + 2) 2 = some len.toNat →
    6 ≤ len.toNat → len.toNat ≤ s.cfg.maxLen → s.fill < s.cur + len.toNat →
    exec (.scanWait len) s = .next { s with phase := .stopped }

/-- R115: a complete frame with its footer gives `ValidFrame` of exactly its `L` bytes and an advance of `L`. -/
def Obligations.ScanEmitReportsTheFrame : Prop :=
  ∀ (s : State) (len : Len), s.phase = .scanning → s.cur ≤ s.fill → 6 ≤ s.fill - s.cur →
    s.readByte s.cur = some 0xC8 → s.readByte (s.cur + 1) = some 0x8C → s.memRead (s.cur + 2) 2 = some len.toNat →
    6 ≤ len.toNat → len.toNat ≤ s.cfg.maxLen → s.cur + len.toNat ≤ s.fill →
    s.readByte (s.cur + len.toNat - 2) = some 0x0D → s.readByte (s.cur + len.toNat - 1) = some 0x0A →
    ∃ f : List Byte, f.length = len.toNat ∧ (∀ j, j < len.toNat → f[j]? = s.readByte (s.cur + j)) ∧
      exec (.scanEmit len) s = .next { s with events := s.events ++ [.validFrame f], cur := s.cur + len.toNat }

/-- R116: a complete span of an accepted length without the footer gives `Resync(2)` and an advance of 2; one wrong
footer byte is enough. -/
def Obligations.ScanResync2SkipsOnlyTheHeader : Prop :=
  ∀ (s : State) (len : Len), s.phase = .scanning → s.cur ≤ s.fill → 6 ≤ s.fill - s.cur →
    s.readByte s.cur = some 0xC8 → s.readByte (s.cur + 1) = some 0x8C → s.memRead (s.cur + 2) 2 = some len.toNat →
    6 ≤ len.toNat → len.toNat ≤ s.cfg.maxLen → s.cur + len.toNat ≤ s.fill →
    (s.readByte (s.cur + len.toNat - 2) ≠ some 0x0D ∨ s.readByte (s.cur + len.toNat - 1) ≠ some 0x0A) →
    exec (.scanResync2 len) s = .next { s with events := s.events ++ [.resync 2], cur := s.cur + 2 }

/-- R110: a scan step reads the window only and writes the cursor only: of two states with the same window and
parameters, each takes it with the same advance, the same events, at most one, and the same decision to go on or stop,
and nothing else changes. -/
def Obligations.ScanStepReadsOnlyTheWindow : Prop :=
  ∀ (k : ScanStep) (s s' t : State), s.window = s'.window → s.cfg = s'.cfg → s.phase = s'.phase →
    exec k.instr s = .next t →
    ∃ (new : List Event) (p : Phase), new.length ≤ 1 ∧ (p = .scanning ∨ p = .stopped) ∧
      t = { s with cur := s.cur + k.distance, events := s.events ++ new, phase := p } ∧
      exec k.instr s' = .next { s' with cur := s'.cur + k.distance, events := s'.events ++ new, phase := p }

/-- A scan step outside a scan, or that R65 does not select, is refused by name (the model's choice, assumption 9; R66
gives every state exactly one step). -/
def Obligations.UnselectedScanStepIsRefused : Prop :=
  ∀ (k : ScanStep) (s : State),
    (s.phase ≠ .scanning → exec k.instr s = .refused .noScanInProgress) ∧
    (s.phase = .scanning → s.selected ≠ k → exec k.instr s = .refused .stepNotSelected)

/-- R118: every continuing step moves the cursor on and keeps it in the buffer; a scan makes at most as many continuing
steps as there are bytes at the cursor, and then stops. -/
def Obligations.ScanMakesProgressAndStops : Prop :=
  (∀ (s t : State) (k : ScanStep), s.cur ≤ s.fill → exec k.instr s = .next t →
    t.fill = s.fill ∧ t.cur ≤ t.fill ∧ t.cur = s.cur + k.distance ∧
    ((t.phase = .scanning ∧ s.cur < t.cur ∧ (k = .skip1 ∨ (∃ len, k = .badlen len) ∨ (∃ len, k = .resync2 len) ∨
        ∃ len : Len, k = .emit len ∧ 6 ≤ len.toNat)) ∨
      (t.phase = .stopped ∧ t.cur = s.cur ∧ (k = .short ∨ ∃ len, k = .wait len)))) ∧
  (∀ s : State, s.phase = .scanning → s.cur ≤ s.fill →
    ∃ (ks : List ScanStep) (last : ScanStep) (t : State), scanPath s (ks ++ [last]) t ∧ t.phase = .stopped ∧
      ks.length ≤ s.fill - s.cur ∧ last.stops = true)

/-- R119: a step that is no `SCAN.EMIT` steps over no start of a header: the only header start among the positions it
leaves behind is the abandoned one it stood at. -/
def Obligations.NoHeaderStartIsSteppedOver : Prop :=
  ∀ (s t : State) (k : ScanStep), exec k.instr s = .next t → (∀ len, k ≠ .emit len) →
    ∀ q, s.cur ≤ q → q < t.cur → s.readByte q = some 0xC8 → s.readByte (q + 1) = some 0x8C →
      q = s.cur ∧ ((∃ len, k = .badlen len) ∨ ∃ len, k = .resync2 len)

/-- A frame that the cursor reaches is emitted whole, whatever follows it (R64, R115, the decision sequence of R143). -/
def Obligations.FrameAtTheCursorIsEmitted : Prop :=
  ∀ (s : State) (f rest : List Byte), s.phase = .scanning → s.window = f ++ rest →
    isFrame s.cfg.maxLen f = true →
    exec (.scanEmit (BitVec.ofNat 16 f.length)) s =
      .next { s with events := s.events ++ [.validFrame f], cur := s.cur + f.length }

/-- R136 (a), (b): a continuing decision at a position is the same with every longer stream; a stopping one is taken
only where the stream is not yet long enough for a continuing one. -/
def Obligations.DecisionsDependOnTheStreamOnly : Prop :=
  ∀ (m : Nat) (w : List Byte),
    ((decodeScan m w).stops = false → ∀ more : List Byte, decodeScan m (w ++ more) = decodeScan m w) ∧
    ((decodeScan m w).stops = true → ∃ more : List Byte, (decodeScan m (w ++ more)).stops = false)

/-- The decoder never looks at a payload byte (R62, R63, R69): two windows of one length that agree on their first four
bytes and on the two bytes that end the declared length are decided alike. -/
def Obligations.SelectionReadsHeaderLengthAndFooterOnly : Prop :=
  ∀ (m : Nat) (w w' : List Byte), w.length = w'.length →
    (∀ j, j < 4 ∨ (declaredLen w).toNat ≤ j + 2 ∧ j < (declaredLen w).toNat → w[j]? = w'[j]?) →
    decodeScan m w = decodeScan m w'

/-- R68: a length above `MAX_LEN` is row 3 of R65; at the default `MAX_LEN = 65535` only a length below 6 is. -/
def Obligations.DefaultMaxLenRejectsNoLongFrame : Prop :=
  (∀ (m : Nat) (w : List Byte), 6 ≤ w.length → hasHeader w = true → m < (declaredLen w).toNat →
    decodeScan m w = .badlen (declaredLen w)) ∧
  (∀ (w : List Byte) (len : Len), decodeScan 65535 w = .badlen len → len.toNat < 6)

/-! ## The encoder -/

/-- R92 to R99: each `ENC.*` operation has its code, returns its catalog entry in every state (a `FEED` in progress or
not) and changes nothing else; each entry is a frame, as R91 asks of the default build (whatever the free bytes are,
assumptions 3 and 4), and `CMD_BYTES[6]` is the eight bytes of R98. -/
def Obligations.EncoderReturnsItsCatalogEntry : Prop :=
  cmdBytes .getTransmitPower = [0xC8, 0x8C, 0x00, 0x08, 0x12, 0x1A, 0x0D, 0x0A] ∧
  (∀ id : CmdId, isFrame Config.standard.maxLen (cmdBytes id) = true) ∧
  ∀ (m : Nat) (s : State),
    decode m (.command 0b000) = .encScanc ∧
      exec .encScanc s = .next { s with encOut := s.encOut ++ [cmdBytes .scanContinuous] } ∧
    decode m (.command 0b001) = .encScan1 ∧
      exec .encScan1 s = .next { s with encOut := s.encOut ++ [cmdBytes .scanSingle] } ∧
    decode m (.command 0b010) = .encStop ∧
      exec .encStop s = .next { s with encOut := s.encOut ++ [cmdBytes .scanStop] } ∧
    decode m (.command 0b011) = .encHwver ∧
      exec .encHwver s = .next { s with encOut := s.encOut ++ [cmdBytes .getHardwareVersion] } ∧
    decode m (.command 0b100) = .encFwver ∧
      exec .encFwver s = .next { s with encOut := s.encOut ++ [cmdBytes .getFirmwareVersion] } ∧
    decode m (.command 0b101) = .encDevid ∧
      exec .encDevid s = .next { s with encOut := s.encOut ++ [cmdBytes .getDeviceId] } ∧
    decode m (.command 0b110) = .encTxpwr ∧
      exec .encTxpwr s = .next { s with encOut := s.encOut ++ [cmdBytes .getTransmitPower] } ∧
    decode m (.command 0b111) = .encAnt ∧
      exec .encAnt s = .next { s with encOut := s.encOut ++ [cmdBytes .getAntennaStatus] }

/-- R91, R100: every catalog entry is a well-formed frame of at least 8 bytes, in every build that accepts its length
and so in the default one; trailing bytes `1A`, `22` and `84` each occur. Which values the free bytes have is open
(assumptions 3 and 4); the statement holds for all of them. -/
def Obligations.CatalogEntriesAreFrames : Prop :=
  (∀ (id : CmdId) (m : Nat), (cmdBytes id).length ≤ m → isFrame m (cmdBytes id) = true) ∧
  (∀ id : CmdId, 8 ≤ (cmdBytes id).length ∧ isFrame Config.standard.maxLen (cmdBytes id) = true) ∧
  (∃ id : CmdId, catalogByte id ((cmdBytes id).length - 3) = some 0x1A) ∧
  (∃ id : CmdId, catalogByte id ((cmdBytes id).length - 3) = some 0x22) ∧
  (∃ id : CmdId, catalogByte id ((cmdBytes id).length - 3) = some 0x84)

/-- R55: an `ENC.*` operation and a decoder operation do not see each other: in either order both have the same
result. -/
def Obligations.EncoderAndDecoderAreIndependent : Prop :=
  ∀ (id : CmdId) (i : Instr) (s t : State),
    ((∃ c, i = .feed c) ∨ i = .reset ∨ ∃ k : ScanStep, i = k.instr) → exec i s = .next t →
    ∃ s' t' : State, exec id.instr s = .next s' ∧ exec i s' = .next t' ∧ exec id.instr t = .next t'

/-! ## `FEED` and `RESET` -/

/-- R130: a `FEED` in a quiescent decoder, within `MAX_CHUNK`, answers: it is the append, then scan steps run one by one
as the operations they are, from the first byte until one stops, then the compaction. Nothing else changes. -/
def Obligations.FeedIsAppendScanCompact : Prop :=
  ∀ (s : State) (c : List Byte), s.phase = .idle → s.cfg.allowsChunk c.length = true →
    ∃ (ks : List ScanStep) (u t : State),
      scanPath { s with buf := s.buf ++ c, cur := 0, phase := .scanning } ks u ∧ u.phase = .stopped ∧
      exec (.feed c) s = .next t ∧ t = { u with buf := u.buf.drop u.cur, cur := 0, phase := .idle } ∧
      u.buf = s.buf ++ c ∧ t.cfg = s.cfg ∧ t.encOut = s.encOut ∧ t.inbox = s.inbox ∧
      (∀ a, t.readByte a = (s.buf ++ c)[u.cur + a]?)

/-- R144, R27: from every state between `FEED`s, of whatever contents, a `FEED` within the contract answers, and leaves
a quiescent state whose tail is shorter than `MAX_LEN`. -/
def Obligations.FeedAlwaysEndsQuiescent : Prop :=
  ∀ (s : State) (c : List Byte), s.cfg.legal = true → s.phase = .idle → s.cfg.allowsChunk c.length = true →
    ∃ t : State, exec (.feed c) s = .next t ∧ t.quiescent ∧ t.fill ≤ s.cfg.maxLen - 1

/-- R131: an empty chunk is a no-op on a quiescent decoder. -/
def Obligations.EmptyChunkChangesNothing : Prop :=
  ∀ s : State, s.quiescent → exec (.feed []) s = .next s

/-- R132 (a), (b): a `FEED` during a `FEED`, or above `MAX_CHUNK`, is refused by name. -/
def Obligations.FeedOutsideTheContractIsRefused : Prop :=
  ∀ (s : State) (c : List Byte),
    (s.phase ≠ .idle → exec (.feed c) s = .refused .overlappingFeed) ∧
    (s.phase = .idle → ∀ m, s.cfg.maxChunk = some m → m < c.length → exec (.feed c) s = .refused .chunkTooLong)

/-- R133: `RESET` empties the decoder and changes nothing else: no event is emitted. R133 asks for a quiescent decoder;
that the same holds during a `FEED` is R182, which leaves it to a model to admit such a reset: the model's choice,
assumption 13 (DESIGN CHOICE). -/
def Obligations.ResetEmptiesTheDecoder : Prop :=
  ∀ s : State, exec .reset s = .next { s with buf := [], cur := 0, phase := .idle }

/-- R30: the buffer is empty after reset, power-on reset or the `RESET` operation. -/
def Obligations.PowerOnIsTheResetState : Prop :=
  State.reset.fill = 0 ∧ State.reset.cur = 0 ∧ State.reset.quiescent ∧
  ∀ s t : State, exec .reset s = .next t →
    t.fill = 0 ∧ t.cur = 0 ∧ t.quiescent ∧ t.buf = State.reset.buf ∧ t.cur = State.reset.cur ∧
      t.phase = State.reset.phase

/-- R182: a reset during a `FEED` leaves the reset state and some prefix of that `FEED`'s events delivered; every
prefix, the empty one and all of them among them, is reached by a reset at some moment. R182 lets a model admit or
refuse such a reset; that it is admitted, with every prefix, is the model's choice, assumption 13 (DESIGN CHOICE). -/
def Obligations.ResetDuringFeedDeliversAPrefix : Prop :=
  ∀ (s t : State) (c : List Byte), exec (.feed c) s = .next t →
    (∀ (ks : List ScanStep) (u v : State),
      scanPath { s with buf := s.buf ++ c, cur := 0, phase := .scanning } ks u → exec .reset u = .next v →
      s.events <+: v.events ∧ v.events <+: t.events ∧ v.buf = [] ∧ v.cur = 0 ∧ v.phase = .idle) ∧
    (∀ n : Nat, ∃ (ks : List ScanStep) (u v : State),
      scanPath { s with buf := s.buf ++ c, cur := 0, phase := .scanning } ks u ∧ exec .reset u = .next v ∧
      v.events = s.events ++ (t.events.drop s.events.length).take n)

/-! ## Laws of the stream -/

/-- R135: any two chunkings of the same bytes give, from a quiescent decoder, the same state: the same events in the
same order and the same tail. -/
def Obligations.ChunkBoundariesDoNotMatter : Prop :=
  ∀ (s : State) (cs ds : List (List Byte)), s.quiescent → cs.flatten = ds.flatten →
    (∀ c ∈ cs, s.cfg.allowsChunk c.length = true) → (∀ d ∈ ds, s.cfg.allowsChunk d.length = true) →
    ∃ t : State, execAll (cs.map .feed) s = .next t ∧ execAll (ds.map .feed) s = .next t

/-- R137: every byte fed is inside an emitted frame, one of the two bytes of a `Resync`, silently skipped, or in the
tail; the pieces are in stream order and leave no gap; the count is `|S| = sum(F) + 2*r + k + FILL`. -/
def Obligations.EveryByteIsAccountedFor : Prop :=
  ∀ (s t : State) (cs : List (List Byte)), s.buf = [] → execAll (cs.map .feed) s = .next t →
    ∃ ps : List Piece, cs.flatten = ps.flatMap Piece.bytes ++ t.buf ∧
      t.events = s.events ++ ps.filterMap Piece.event ∧
      cs.flatten.length = ((ps.filterMap Piece.event).map Event.byteCount).sum +
        ps.countP (fun p => p.event.isNone) + t.fill

/-- R137 for one `FEED`: what is skipped silently is what its `SCAN.SKIP1` steps stepped over. -/
def Obligations.SilentlySkippedBytesAreTheSkip1Steps : Prop :=
  ∀ (s u : State) (ks : List ScanStep), s.cur ≤ s.fill → scanPath s ks u →
    u.cur = s.cur + ((u.events.drop s.events.length).map Event.byteCount).sum + ks.count .skip1

/-- R138: during a `FEED` of `n` bytes into a quiescent decoder `FILL ≤ MAX_LEN - 1 + n`, which is within `BUF_CAP`. -/
def Obligations.BufferNeverOverflows : Prop :=
  ∀ (s u : State) (c : List Byte) (ks : List ScanStep), s.cfg.legal = true → s.quiescent →
    s.cfg.allowsChunk c.length = true →
    scanPath { s with buf := s.buf ++ c, cur := 0, phase := .scanning } ks u →
    s.fill ≤ s.cfg.maxLen - 1 ∧ u.fill ≤ s.cfg.maxLen - 1 + c.length ∧ u.withinCap

/-- R139: what the encoder returns for a command decodes, in an empty decoder that accepts its length, to exactly that
frame, and nothing is retained; and so does every byte string that is a frame, whatever its payload. -/
def Obligations.CatalogRoundTrip : Prop :=
  (∀ (id : CmdId) (s : State), s.quiescent → s.buf = [] → (cmdBytes id).length ≤ s.cfg.maxLen →
    s.cfg.allowsChunk (cmdBytes id).length = true →
    ∃ t : State, exec id.instr s = .next t ∧ t.encOut = s.encOut ++ [cmdBytes id] ∧
      exec (.feed (cmdBytes id)) t = .next { t with events := t.events ++ [.validFrame (cmdBytes id)] }) ∧
  (∀ (s : State) (f : List Byte), s.quiescent → s.buf = [] → isFrame s.cfg.maxLen f = true →
    s.cfg.allowsChunk f.length = true →
    exec (.feed f) s = .next { s with events := s.events ++ [.validFrame f] })

/-- R140: a stream without a `C8 8C` pair, in any chunks, gives no event and leaves its last `min(|S|, 5)` bytes. -/
def Obligations.GarbageLeavesAtMostFiveBytes : Prop :=
  ∀ (s : State) (cs : List (List Byte)), s.quiescent → s.buf = [] → noHeaderPair cs.flatten = true →
    (∀ c ∈ cs, s.cfg.allowsChunk c.length = true) →
    execAll (cs.map .feed) s =
      .next { s with buf := cs.flatten.drop (cs.flatten.length - min cs.flatten.length 5) }

/-- R141: back-to-back frames in one chunk are all emitted in order; each event of a `FEED` uses up at least 2 bytes. -/
def Obligations.BackToBackFramesAreAllEmitted : Prop :=
  (∀ (s : State) (fs : List (List Byte)), s.quiescent → s.buf = [] →
    (∀ f ∈ fs, isFrame s.cfg.maxLen f = true) → s.cfg.allowsChunk fs.flatten.length = true →
    exec (.feed fs.flatten) s = .next { s with events := s.events ++ fs.map .validFrame }) ∧
  (∀ (s t : State) (c : List Byte), exec (.feed c) s = .next t →
    2 * (t.events.length - s.events.length) ≤ s.fill + c.length)

/-- R142: a frame split at any offset: nothing before its last byte has come, then the frame. -/
def Obligations.SplitFrameIsEmittedOnce : Prop :=
  ∀ (s : State) (f : List Byte) (k : Nat), s.quiescent → s.buf = [] →
    isFrame s.cfg.maxLen f = true → s.cfg.allowsChunk f.length = true → k ≤ f.length →
    (k < f.length → exec (.feed (f.take k)) s = .next { s with buf := f.take k }) ∧
    execAll [.feed (f.take k), .feed (f.drop k)] s = .next { s with events := s.events ++ [.validFrame f] }

/-- R143: after garbage that holds no header pair, a frame is found, in whatever chunks the stream comes and whatever
the garbage's last bytes are. -/
def Obligations.FrameAfterGarbageIsFound : Prop :=
  ∀ (s : State) (g f : List Byte) (cs : List (List Byte)), s.quiescent → s.buf = [] → noHeaderPair g = true →
    isFrame s.cfg.maxLen f = true → cs.flatten = g ++ f → (∀ c ∈ cs, s.cfg.allowsChunk c.length = true) →
    execAll (cs.map .feed) s = .next { s with events := s.events ++ [.validFrame f] }

/-- R185: behind an incomplete frame at the front of the buffer nothing is looked at: a `FEED` that does not complete
it emits nothing and keeps everything. -/
def Obligations.IncompleteFrameHoldsEverythingBack : Prop :=
  ∀ (s : State) (c : List Byte), s.quiescent → s.cfg.allowsChunk c.length = true →
    incompleteFrame s.cfg.maxLen (s.buf ++ c) → exec (.feed c) s = .next { s with buf := s.buf ++ c }

/-- R187: in the default build a stray header pair directly before a frame reads as the length `0xC88C = 51340`, and the
decoder waits for that many bytes: nothing is emitted and all is kept. -/
def Obligations.StrayHeaderBeforeAFrameStalls : Prop :=
  ∀ (s : State) (f : List Byte), s.cfg = Config.standard → s.quiescent → s.buf = [] → isFrame 65535 f = true →
    f.length + 2 < 51340 → exec (.feed ([0xC8, 0x8C] ++ f)) s = .next { s with buf := [0xC8, 0x8C] ++ f }

/-! ## The whole machine -/

/-- One step: during a scan with nothing presented, the instruction that the bytes at the cursor decode to; a presented
host operation, decoded, where the decoder is quiescent or its moment during a `FEED` has come; while it has not, the
decoder's own move and one step less to wait; the end of a `FEED`; nothing at all where nothing is asked (R180).
Three things are the model's: the form of the interface (assumption 7, DESIGN CHOICE); that a `FEED` presented with a
reset has no effect at all, read from R169's "reset wins" (assumption 10, DEDUCED); and that a `FEED` can be taken one
scan step at a time (assumption 1, DESIGN CHOICE). -/
def Obligations.StepRunsTheFetchedInstruction : Prop :=
  ∀ s : State,
    (s.inbox = [] → s.phase = .scanning → step s = exec (decode s.cfg.maxLen (.window s.window)) s) ∧
    (s.inbox = [] → s.phase = .stopped →
      step s = .next { s with buf := s.buf.drop s.cur, cur := 0, phase := .idle }) ∧
    (s.inbox = [] → s.phase = .idle → step s = .next s) ∧
    (∀ (n : Nat) (op : HostOp) (rest : List Request), s.inbox = { after := n, op := op } :: rest →
      (s.phase = .idle ∨ n = 0) →
      (∀ bits, op = .command bits →
        step s = exec (decode s.cfg.maxLen (.command bits)) { s with inbox := rest }) ∧
      (∀ c, op = .feed c → step s = exec (.feed c) { s with inbox := rest }) ∧
      (op = .reset → step s = exec .reset { s with inbox := rest }) ∧
      (∀ c, op = .resetWithFeed c → step s = exec .reset { s with inbox := rest }) ∧
      (∀ c, op = .feedStepwise c → s.phase = .idle → s.cfg.allowsChunk c.length = true →
        step s = .next { s with buf := s.buf ++ c, cur := 0, phase := .scanning, inbox := rest })) ∧
    (∀ (n : Nat) (op : HostOp) (rest : List Request), s.inbox = { after := n + 1, op := op } :: rest →
      (s.phase = .scanning →
        step s = exec (decode s.cfg.maxLen (.window s.window)) { s with inbox := { after := n, op := op } :: rest }) ∧
      (s.phase = .stopped →
        step s = .next { s with
          buf := s.buf.drop s.cur, cur := 0, phase := .idle, inbox := { after := n, op := op } :: rest }))

/-- A `FEED` taken one scan step at a time comes to the state of the atomic `FEED` within `FILL + |c| + 3` steps of the
machine and stays there (R5: the two grains of the same operation; the bound is R118's). That the machine can take a `FEED` at either grain is
the model's choice, assumption 1 (DESIGN CHOICE). -/
def Obligations.StepwiseFeedReachesTheAtomicFeed : Prop :=
  ∀ (s : State) (c : List Byte) (a n : Nat), s.phase = .idle → s.cfg.allowsChunk c.length = true → s.inbox = [] →
    s.fill + c.length + 3 ≤ n →
    core.run n { s with inbox := [{ after := a, op := .feedStepwise c }] } = exec (.feed c) s

/-- The invariant of the machine (R22, R23, R27, R138) is kept by every step from every state that has it. -/
def Obligations.StepKeepsTheInvariant : Prop :=
  ∀ s s' : State, s.inv → step s = .next s' → s'.inv

/-- The state after reset has the invariant. -/
def Obligations.ResetHasTheInvariant : Prop := State.reset.inv

/-- R162, R163: every event a step puts out is a `ValidFrame` whose bytes are a valid frame of the build (R64), or a
`Resync` that records 2. -/
def Obligations.OnlyProperEventsAreEmitted : Prop :=
  ∀ s s' : State, step s = .next s' → ∀ e ∈ s'.events.drop s.events.length, e.proper s.cfg.maxLen = true

/-- R161, R29, R177: what has been put out is never dropped, changed or reordered, by an event or by the encoder; and no
step writes the static parameters (R24). -/
def Obligations.OutputsAreOnlyAppendedTo : Prop :=
  ∀ s s' : State, step s = .next s' → s.events <+: s'.events ∧ s.encOut <+: s'.encOut ∧ s'.cfg = s.cfg

/-- Which part of the state each kind of operation may write: no operation the parameters or what the host presents; a
decoder operation nothing of the encoder's output (R55); an encoder operation nothing but it (R90). -/
def Obligations.OperationsKeepToTheirPart : Prop :=
  ∀ (i : Instr) (s t : State), exec i s = .next t →
    t.cfg = s.cfg ∧ t.inbox = s.inbox ∧
    ((∃ id : CmdId, i = id.instr ∧ t.encOut = s.encOut ++ [cmdBytes id] ∧ t.events = s.events ∧ t.phase = s.phase ∧
        t.cur = s.cur ∧ ∀ a, t.readByte a = s.readByte a) ∨
      ((∀ id : CmdId, i ≠ id.instr) ∧ t.encOut = s.encOut))

/-- R160: no input makes the block fail. A step answers unless the host breaks its contract by presenting a `FEED`
during a `FEED` or above `MAX_CHUNK` (R132), and then it is refused by that name. That what is presented stands in an
inbox, and that a `FEED` can be taken one scan step at a time, are the model's (assumptions 7 and 1). -/
def Obligations.OnlyTheHostsContractIsRefused : Prop :=
  ∀ s : State, (∃ s' : State, step s = .next s') ∨
    ∃ (n : Nat) (op : HostOp) (c : List Byte) (rest : List Request),
      s.inbox = { after := n, op := op } :: rest ∧ (op = .feed c ∨ op = .feedStepwise c) ∧
      ((s.phase ≠ .idle ∧ n = 0 ∧ step s = .refused .overlappingFeed) ∨
        (s.phase = .idle ∧ s.cfg.allowsChunk c.length = false ∧ step s = .refused .chunkTooLong))
end

