-- ==== Sys2Proof/Laws/Decode.lean ====
section
/-! SUPPORT. What the byte-order reads and the window decoder answer, said once. -/

namespace Sys2Proof

/-! Reads -/

theorem readBE_append {bs cs : List Byte} {a n v : Nat} (h : readBE bs a n = some v) :
    readBE (bs ++ cs) a n = some v := by
  simp only [readBE, List.length_append] at *
  split at h
  · rename_i hl
    rw [if_pos (by omega), List.drop_append_of_le_length (by omega),
      List.take_append_of_le_length (by simp; omega)]
    exact h
  · cases h

/-- A read in the first `m` bytes does not see what follows. -/
theorem readBE_append_left {bs cs : List Byte} {a n : Nat} (h : a + n ≤ bs.length) :
    readBE (bs ++ cs) a n = readBE bs a n := by
  obtain ⟨v, hv⟩ : ∃ v, readBE bs a n = some v := ⟨_, by rw [readBE, if_pos h]⟩
  rw [hv, readBE_append hv]

theorem readBE_drop (bs : List Byte) (d a n : Nat) (h : d ≤ bs.length) :
    readBE (bs.drop d) a n = readBE bs (d + a) n := by
  simp only [readBE, List.length_drop, List.drop_drop]
  congr 1
  apply propext
  constructor <;> intro _ <;> omega

theorem readBE_one (bs : List Byte) (a : Nat) : readBE bs a 1 = bs[a]?.map BitVec.toNat := by
  unfold readBE
  split
  · rename_i h
    have hl : a < bs.length := by omega
    rw [List.drop_eq_getElem_cons hl, List.getElem?_eq_getElem hl, List.take_succ_cons, List.take_zero]
    simp [beNat]
  · rename_i h
    rw [List.getElem?_eq_none (by omega)]
    rfl

theorem readBE_two {bs : List Byte} {a : Nat} {b0 b1 : Byte} (h0 : bs[a]? = some b0) (h1 : bs[a + 1]? = some b1) :
    readBE bs a 2 = some (256 * b0.toNat + b1.toNat) := by
  obtain ⟨l0, e0⟩ := List.getElem?_eq_some_iff.1 h0
  obtain ⟨l1, e1⟩ := List.getElem?_eq_some_iff.1 h1
  rw [readBE, if_pos (by omega), List.drop_eq_getElem_cons l0, List.drop_eq_getElem_cons l1]
  simp [beNat, e0, e1]

theorem readBE_two_lt {bs : List Byte} {a v : Nat} (h : readBE bs a 2 = some v) : v < 65536 := by
  have hl : a + 2 ≤ bs.length := by
    by_contra hc
    simp [readBE, if_neg hc] at h
  have h0 : bs[a]? = some bs[a] := List.getElem?_eq_getElem (by omega)
  have h1 : bs[a + 1]? = some bs[a + 1] := List.getElem?_eq_getElem (by omega)
  rw [readBE_two h0 h1] at h
  have := bs[a].isLt
  have := bs[a + 1].isLt
  simp only [Option.some.injEq] at h
  omega

/-! The header, the length and the footer of a window -/

theorem hasHeader_iff (w : List Byte) : hasHeader w = true ↔ w[0]? = some 0xC8 ∧ w[1]? = some 0x8C := by
  have h (o : Option Byte) (b : Byte) : o.map BitVec.toNat = some b.toNat ↔ o = some b := by
    cases o <;> simp [BitVec.toNat_inj]
  simp only [hasHeader, readBE_one, Bool.and_eq_true, beq_iff_eq]
  exact and_congr (h _ 0xC8) (h _ 0x8C)

theorem hasFooter_iff (w : List Byte) (L : Nat) :
    hasFooter w L = true ↔ w[L - 2]? = some 0x0D ∧ w[L - 1]? = some 0x0A := by
  have h (o : Option Byte) (b : Byte) : o.map BitVec.toNat = some b.toNat ↔ o = some b := by
    cases o <;> simp [BitVec.toNat_inj]
  simp only [hasFooter, readBE_one, Bool.and_eq_true, beq_iff_eq]
  exact and_congr (h _ 0x0D) (h _ 0x0A)

theorem hasHeader_append {w x : List Byte} (h : 2 ≤ w.length) : hasHeader (w ++ x) = hasHeader w := by
  simp only [hasHeader, readBE_append_left (show 0 + 1 ≤ w.length by omega),
    readBE_append_left (show 1 + 1 ≤ w.length by omega)]

theorem declaredLen_append {w x : List Byte} (h : 4 ≤ w.length) : declaredLen (w ++ x) = declaredLen w := by
  simp only [declaredLen, readBE_append_left (show 2 + 2 ≤ w.length by omega)]

theorem hasFooter_append {w x : List Byte} {L : Nat} (h2 : 2 ≤ L) (h : L ≤ w.length) :
    hasFooter (w ++ x) L = hasFooter w L := by
  simp only [hasFooter, readBE_append_left (show L - 2 + 1 ≤ w.length by omega),
    readBE_append_left (show L - 1 + 1 ≤ w.length by omega)]

theorem readBE_declaredLen {w : List Byte} (h : 4 ≤ w.length) : readBE w 2 2 = some (declaredLen w).toNat := by
  obtain ⟨v, hv⟩ : ∃ v, readBE w 2 2 = some v := ⟨_, by rw [readBE, if_pos h]⟩
  rw [declaredLen, hv]
  simp [Nat.mod_eq_of_lt (readBE_two_lt hv)]

theorem lenInRange_iff (m L : Nat) : lenInRange m L = true ↔ MIN_LEN ≤ L ∧ L ≤ m := by
  simp [lenInRange]

/-! The selection (R65) -/

/-- Everything `decodeScan` can answer, with the whole condition of each row. -/
theorem decodeScan_cases (m : Nat) (w : List Byte) :
    (decodeScan m w = .short ∧ w.length < SKELETON) ∨
    (decodeScan m w = .skip1 ∧ SKELETON ≤ w.length ∧ hasHeader w = false) ∨
    (decodeScan m w = .badlen (declaredLen w) ∧ SKELETON ≤ w.length ∧ hasHeader w = true ∧
      lenInRange m (declaredLen w).toNat = false) ∨
    (decodeScan m w = .wait (declaredLen w) ∧ SKELETON ≤ w.length ∧ hasHeader w = true ∧
      lenInRange m (declaredLen w).toNat = true ∧ w.length < (declaredLen w).toNat) ∨
    (decodeScan m w = .emit (declaredLen w) ∧ SKELETON ≤ w.length ∧ hasHeader w = true ∧
      lenInRange m (declaredLen w).toNat = true ∧ (declaredLen w).toNat ≤ w.length ∧
      hasFooter w (declaredLen w).toNat = true) ∨
    (decodeScan m w = .resync2 (declaredLen w) ∧ SKELETON ≤ w.length ∧ hasHeader w = true ∧
      lenInRange m (declaredLen w).toNat = true ∧ (declaredLen w).toNat ≤ w.length ∧
      hasFooter w (declaredLen w).toNat = false) := by
  unfold decodeScan
  split_ifs with h1 h2 h3 h4 h5 <;> simp_all

theorem decodeScan_short {m : Nat} {w : List Byte} (h : w.length < SKELETON) : decodeScan m w = .short := by
  rw [decodeScan, if_pos h]

theorem decodeScan_skip1 {m : Nat} {w : List Byte} (h : SKELETON ≤ w.length) (hh : hasHeader w = false) :
    decodeScan m w = .skip1 := by
  rw [decodeScan, if_neg (by omega), if_pos hh]

theorem decodeScan_badlen {m : Nat} {w : List Byte} (h : SKELETON ≤ w.length) (hh : hasHeader w = true)
    (hr : lenInRange m (declaredLen w).toNat = false) : decodeScan m w = .badlen (declaredLen w) := by
  rw [decodeScan, if_neg (by omega), if_neg (by simp [hh]), if_pos hr]

theorem decodeScan_wait {m : Nat} {w : List Byte} (h : SKELETON ≤ w.length) (hh : hasHeader w = true)
    (hr : lenInRange m (declaredLen w).toNat = true) (hl : w.length < (declaredLen w).toNat) :
    decodeScan m w = .wait (declaredLen w) := by
  rw [decodeScan, if_neg (by omega), if_neg (by simp [hh]), if_neg (by simp [hr]), if_pos hl]

theorem decodeScan_emit {m : Nat} {w : List Byte} (h : SKELETON ≤ w.length) (hh : hasHeader w = true)
    (hr : lenInRange m (declaredLen w).toNat = true) (hl : (declaredLen w).toNat ≤ w.length)
    (hf : hasFooter w (declaredLen w).toNat = true) : decodeScan m w = .emit (declaredLen w) := by
  rw [decodeScan, if_neg (by omega), if_neg (by simp [hh]), if_neg (by simp [hr]), if_neg (by omega), if_pos hf]

theorem decodeScan_resync2 {m : Nat} {w : List Byte} (h : SKELETON ≤ w.length) (hh : hasHeader w = true)
    (hr : lenInRange m (declaredLen w).toNat = true) (hl : (declaredLen w).toNat ≤ w.length)
    (hf : hasFooter w (declaredLen w).toNat = false) : decodeScan m w = .resync2 (declaredLen w) := by
  rw [decodeScan, if_neg (by omega), if_neg (by simp [hh]), if_neg (by simp [hr]), if_neg (by omega),
    if_neg (by simp [hf])]

/-! The encoder's fields -/

theorem lenBytes_length (len : Len) : (lenBytes len).length = 2 := rfl

/-- The two bytes of a length field read back as the length (R61). -/
theorem beNat_lenBytes (len : Len) : beNat (lenBytes len) = len.toNat := by
  have := len.isLt
  simp [beNat, lenBytes, BitVec.extractLsb'_toNat, Nat.shiftRight_eq_div_pow]
  omega

/-- The length bytes of a window are those of its declared length. -/
theorem take_lenBytes {w : List Byte} (h : 4 ≤ w.length) : (w.drop 2).take 2 = lenBytes (declaredLen w) := by
  match w, h with
  | a :: b :: c :: d :: r, _ =>
    have hr : readBE (a :: b :: c :: d :: r) 2 2 = some (256 * c.toNat + d.toNat) := readBE_two rfl rfl
    have := c.isLt
    have := d.isLt
    simp only [declaredLen, hr, Option.getD_some, List.drop_succ_cons, List.drop_zero, List.take_succ_cons,
      List.take_zero, lenBytes]
    congr 1
    · apply BitVec.eq_of_toNat_eq
      simp [BitVec.extractLsb'_toNat, Nat.shiftRight_eq_div_pow]
      omega
    · congr 1
      apply BitVec.eq_of_toNat_eq
      simp [BitVec.extractLsb'_toNat]
      omega

/-- A window that begins with the header and the bytes of a length declares that length. -/
theorem declaredLen_header (len : Len) (r : List Byte) : declaredLen (HEADER ++ lenBytes len ++ r) = len := by
  have h : readBE (HEADER ++ lenBytes len ++ r) 2 2 = some len.toNat := by
    rw [readBE, if_pos (by simp [HEADER, lenBytes]), ← beNat_lenBytes len]
    rfl
  rw [declaredLen, h]
  simp

theorem hasHeader_header (r : List Byte) : hasHeader (HEADER ++ r) = true := (hasHeader_iff _).2 ⟨rfl, rfl⟩

/-- The footer test of a window at its own end. -/
theorem hasFooter_end {w : List Byte} {L : Nat} (a b : Byte) (h : L = w.length + 2) :
    hasFooter (w ++ [a, b]) L = decide (a = 0x0D ∧ b = 0x0A) := by
  subst h
  rw [Bool.eq_iff_iff, hasFooter_iff, show w.length + 2 - 2 = w.length by omega,
    show w.length + 2 - 1 = w.length + 1 by omega, List.getElem?_append_right (by omega),
    List.getElem?_append_right (by omega)]
  simp

end Sys2Proof
end

