-- ==== Sys2Proof/Laws/State.lean ====
section
/-! SUPPORT. What each shared update does to each field of the state. -/

namespace Sys2Proof.Machine

namespace State

variable (s : State)

@[simp] theorem advance_cfg (n : Nat) : (s.advance n).cfg = s.cfg := rfl
@[simp] theorem advance_buf (n : Nat) : (s.advance n).buf = s.buf := rfl
@[simp] theorem advance_cur (n : Nat) : (s.advance n).cur = s.cur + n := rfl
@[simp] theorem advance_phase (n : Nat) : (s.advance n).phase = s.phase := rfl
@[simp] theorem advance_events (n : Nat) : (s.advance n).events = s.events := rfl
@[simp] theorem advance_encOut (n : Nat) : (s.advance n).encOut = s.encOut := rfl
@[simp] theorem advance_inbox (n : Nat) : (s.advance n).inbox = s.inbox := rfl

@[simp] theorem emit_cfg (e : Event) : (s.emit e).cfg = s.cfg := rfl
@[simp] theorem emit_buf (e : Event) : (s.emit e).buf = s.buf := rfl
@[simp] theorem emit_cur (e : Event) : (s.emit e).cur = s.cur := rfl
@[simp] theorem emit_phase (e : Event) : (s.emit e).phase = s.phase := rfl
@[simp] theorem emit_events (e : Event) : (s.emit e).events = s.events ++ [e] := rfl
@[simp] theorem emit_encOut (e : Event) : (s.emit e).encOut = s.encOut := rfl
@[simp] theorem emit_inbox (e : Event) : (s.emit e).inbox = s.inbox := rfl

@[simp] theorem takeEvent_cfg (e : Event) (n : Nat) : (s.takeEvent e n).cfg = s.cfg := rfl
@[simp] theorem takeEvent_buf (e : Event) (n : Nat) : (s.takeEvent e n).buf = s.buf := rfl
@[simp] theorem takeEvent_cur (e : Event) (n : Nat) : (s.takeEvent e n).cur = s.cur + n := rfl
@[simp] theorem takeEvent_phase (e : Event) (n : Nat) : (s.takeEvent e n).phase = s.phase := rfl
@[simp] theorem takeEvent_events (e : Event) (n : Nat) : (s.takeEvent e n).events = s.events ++ [e] := rfl
@[simp] theorem takeEvent_encOut (e : Event) (n : Nat) : (s.takeEvent e n).encOut = s.encOut := rfl
@[simp] theorem takeEvent_inbox (e : Event) (n : Nat) : (s.takeEvent e n).inbox = s.inbox := rfl

@[simp] theorem stop_cfg : s.stop.cfg = s.cfg := rfl
@[simp] theorem stop_buf : s.stop.buf = s.buf := rfl
@[simp] theorem stop_cur : s.stop.cur = s.cur := rfl
@[simp] theorem stop_phase : s.stop.phase = .stopped := rfl
@[simp] theorem stop_events : s.stop.events = s.events := rfl
@[simp] theorem stop_encOut : s.stop.encOut = s.encOut := rfl
@[simp] theorem stop_inbox : s.stop.inbox = s.inbox := rfl

@[simp] theorem startFeed_cfg (c : List Byte) : (s.startFeed c).cfg = s.cfg := rfl
@[simp] theorem startFeed_buf (c : List Byte) : (s.startFeed c).buf = s.buf ++ c := rfl
@[simp] theorem startFeed_cur (c : List Byte) : (s.startFeed c).cur = 0 := rfl
@[simp] theorem startFeed_phase (c : List Byte) : (s.startFeed c).phase = .scanning := rfl
@[simp] theorem startFeed_events (c : List Byte) : (s.startFeed c).events = s.events := rfl
@[simp] theorem startFeed_encOut (c : List Byte) : (s.startFeed c).encOut = s.encOut := rfl
@[simp] theorem startFeed_inbox (c : List Byte) : (s.startFeed c).inbox = s.inbox := rfl

@[simp] theorem finishFeed_cfg : s.finishFeed.cfg = s.cfg := rfl
@[simp] theorem finishFeed_buf : s.finishFeed.buf = s.buf.drop s.cur := rfl
@[simp] theorem finishFeed_cur : s.finishFeed.cur = 0 := rfl
@[simp] theorem finishFeed_phase : s.finishFeed.phase = .idle := rfl
@[simp] theorem finishFeed_events : s.finishFeed.events = s.events := rfl
@[simp] theorem finishFeed_encOut : s.finishFeed.encOut = s.encOut := rfl
@[simp] theorem finishFeed_inbox : s.finishFeed.inbox = s.inbox := rfl

@[simp] theorem clear_cfg : s.clear.cfg = s.cfg := rfl
@[simp] theorem clear_buf : s.clear.buf = [] := rfl
@[simp] theorem clear_cur : s.clear.cur = 0 := rfl
@[simp] theorem clear_phase : s.clear.phase = .idle := rfl
@[simp] theorem clear_events : s.clear.events = s.events := rfl
@[simp] theorem clear_encOut : s.clear.encOut = s.encOut := rfl
@[simp] theorem clear_inbox : s.clear.inbox = s.inbox := rfl

@[simp] theorem answer_cfg (bs : List Byte) : (s.answer bs).cfg = s.cfg := rfl
@[simp] theorem answer_buf (bs : List Byte) : (s.answer bs).buf = s.buf := rfl
@[simp] theorem answer_cur (bs : List Byte) : (s.answer bs).cur = s.cur := rfl
@[simp] theorem answer_phase (bs : List Byte) : (s.answer bs).phase = s.phase := rfl
@[simp] theorem answer_events (bs : List Byte) : (s.answer bs).events = s.events := rfl
@[simp] theorem answer_encOut (bs : List Byte) : (s.answer bs).encOut = s.encOut ++ [bs] := rfl
@[simp] theorem answer_inbox (bs : List Byte) : (s.answer bs).inbox = s.inbox := rfl

/-- Two states with equal fields are one state. -/
theorem ext_fields {s t : State} (h1 : s.cfg = t.cfg) (h2 : s.buf = t.buf) (h3 : s.cur = t.cur)
    (h4 : s.phase = t.phase) (h5 : s.events = t.events) (h6 : s.encOut = t.encOut) (h7 : s.inbox = t.inbox) :
    s = t := by
  cases s; cases t; simp_all

end State

/-- A read of one byte is the buffer's entry, and nothing past `FILL` (R31). -/
theorem readByte_none_iff (s : State) (a : Nat) : s.readByte a = none ↔ s.fill ≤ a := by
  simp [State.readByte, State.fill]

end Sys2Proof.Machine
end

