-- ==== Sys2Proof/Laws/Scan.lean ====
section
/-! SUPPORT. One lemma for each shared operation of the machine: what it can answer, and when. -/

namespace Sys2Proof.Machine

/-! The guards -/

theorem scanGuard_next {k : ScanStep} {s t u : State} :
    scanGuard k s t = .next u ↔ s.phase = .scanning ∧ s.selected = k ∧ u = t := by
  unfold scanGuard
  split_ifs with h1 h2 <;> simp [*, eq_comm (a := t)]

theorem feedGuard_next {c : List Byte} {s t u : State} :
    feedGuard c s t = .next u ↔ s.phase = .idle ∧ s.cfg.allowsChunk c.length = true ∧ u = t := by
  unfold feedGuard
  split_ifs with h1 h2 <;> simp [*, eq_comm (a := t)]

/-- The two refusals of `FEED` and their conditions (R132). -/
theorem feedGuard_refused {c : List Byte} {s t : State} {r : Refusal} :
    feedGuard c s t = .refused r ↔
      (r = .overlappingFeed ∧ s.phase ≠ .idle) ∨
      (r = .chunkTooLong ∧ s.phase = .idle ∧ s.cfg.allowsChunk c.length = false) := by
  unfold feedGuard
  split_ifs with h1 h2 <;> simp [*, eq_comm (b := r)]

/-! A scan step as an operation -/

/-- A scan step as an operation is its effect, under the guard. -/
theorem exec_scanStep (k : ScanStep) (s : State) : exec k.instr s = scanGuard k s (scanEffect k s) := by
  cases k <;> rfl

/-- When a scan step answers, and what. -/
theorem exec_scanStep_next {k : ScanStep} {s t : State} :
    exec k.instr s = .next t ↔ s.phase = .scanning ∧ s.selected = k ∧ t = scanEffect k s := by
  rw [exec_scanStep, scanGuard_next]

/-- The selected step of a scan in progress always answers. -/
theorem exec_selected {s : State} (h : s.phase = .scanning) :
    exec s.selected.instr s = .next (scanEffect s.selected s) :=
  exec_scanStep_next.2 ⟨h, rfl, rfl⟩

/-- No scan step writes `BUF`, a parameter, what the encoder returned or what the host presents (R110). -/
theorem scanEffect_frame (k : ScanStep) (s : State) :
    (scanEffect k s).buf = s.buf ∧ (scanEffect k s).cfg = s.cfg ∧ (scanEffect k s).encOut = s.encOut ∧
      (scanEffect k s).inbox = s.inbox := by
  cases k <;> exact ⟨rfl, rfl, rfl, rfl⟩

/-- A stopping step changes the phase and nothing else (R111, R114). -/
theorem scanEffect_stops {k : ScanStep} (h : k.stops = true) (s : State) : scanEffect k s = s.stop := by
  cases k <;> first | rfl | cases h

/-- A continuing step leaves the scan in progress. -/
theorem scanEffect_continues {k : ScanStep} (h : k.stops = false) (s : State) :
    (scanEffect k s).phase = s.phase := by
  cases k <;> first | rfl | cases h

/-! A path of scan steps -/

theorem scanPath_nil {s t : State} : scanPath s [] t ↔ s = t := by
  simp [scanPath, execAll]

theorem scanPath_cons {s t : State} {k : ScanStep} {ks : List ScanStep} :
    scanPath s (k :: ks) t ↔ s.phase = .scanning ∧ s.selected = k ∧ scanPath (scanEffect k s) ks t := by
  simp only [scanPath, List.map_cons, execAll]
  constructor
  · intro h
    cases hx : exec k.instr s with
    | next u =>
      obtain ⟨hp, hk, rfl⟩ := exec_scanStep_next.1 hx
      exact ⟨hp, hk, by simpa [hx] using h⟩
    | fault r => cases r
    | refused r => simp [hx] at h
  · rintro ⟨hp, hk, h⟩
    rw [exec_scanStep_next.2 ⟨hp, hk, rfl⟩]
    exact h

/-! The window and the cursor -/

theorem window_length (s : State) : s.window.length = s.avail := by
  simp [State.window, State.avail]

theorem window_advance (s : State) (n : Nat) : (s.advance n).window = s.window.drop n := by
  simp [State.window, List.drop_drop]

end Sys2Proof.Machine
end

