-- ==== Sys2Proof/Laws/Stream.lean ====
section
/-! SUPPORT. The scan of a `FEED` as a function of the window alone: the pieces it disposes of and the tail it leaves
(R136). `feedResult_eq` ties it to the machine. -/

namespace Sys2Proof.Machine

/-- The piece of the stream that a step at the front of `w` disposes of; a stopping step disposes of none. -/
def stepPiece (w : List Byte) : ScanStep → Option Piece
  | .short => none
  | .skip1 => some (.skipped (w.headD 0))
  | .badlen _ => some .resynced
  | .wait _ => none
  | .emit len => some (.frame (w.take len.toNat))
  | .resync2 _ => some .resynced

/-- The scan of a window, with a bound on its steps. -/
def streamRun (m : Nat) : Nat → List Byte → List Piece × List Byte
  | 0, w => ([], w)
  | n + 1, w =>
    match stepPiece w (decodeScan m w) with
    | none => ([], w)
    | some p => (p :: (streamRun m n (w.drop p.bytes.length)).1, (streamRun m n (w.drop p.bytes.length)).2)

/-- What a scan of the stream `w` disposes of, and the tail. -/
def streamOf (m : Nat) (w : List Byte) : List Piece × List Byte := streamRun m (w.length + 1) w

theorem header_split {w : List Byte} (h : hasHeader w = true) : w = HEADER ++ w.drop 2 := by
  obtain ⟨h0, h1⟩ := (hasHeader_iff w).1 h
  match w, h0, h1 with
  | a :: b :: r, h0, h1 => simp_all [HEADER]

/-- A step's piece is the front of the window, and not empty (R118). -/
theorem stepPiece_front {m : Nat} {w : List Byte} {p : Piece} (h : stepPiece w (decodeScan m w) = some p) :
    w = p.bytes ++ w.drop p.bytes.length ∧ 1 ≤ p.bytes.length ∧ p.bytes.length ≤ w.length := by
  rcases decodeScan_cases m w with ⟨e, _⟩ | ⟨e, hl, _⟩ | ⟨e, hl, hh, _⟩ | ⟨e, _⟩ | ⟨e, hl, hh, hr, hc, _⟩ |
    ⟨e, hl, hh, _⟩ <;> rw [e] at h <;> simp only [stepPiece, Option.some.injEq, reduceCtorEq] at h <;> subst h
  · match w, hl with
    | a :: r, _ => simp [Piece.bytes]
  · exact ⟨header_split hh, by decide, Nat.le_trans (by decide) hl⟩
  · have := ((lenInRange_iff _ _).1 hr).1
    simp only [MIN_LEN] at this
    simp only [Piece.bytes, List.length_take, Nat.min_eq_left hc, List.take_append_drop]
    exact ⟨trivial, by omega, hc⟩
  · exact ⟨header_split hh, by decide, Nat.le_trans (by decide) hl⟩

theorem stepPiece_none_iff (w : List Byte) (k : ScanStep) : stepPiece w k = none ↔ k.stops = true := by
  cases k <;> simp [stepPiece, ScanStep.stops]

/-- More steps than bytes change nothing: a scan of `w` makes at most `w.length` continuing steps (R118). -/
theorem streamRun_fuel {m : Nat} : ∀ {n n' : Nat} {w : List Byte}, w.length < n → w.length < n' →
    streamRun m n w = streamRun m n' w
  | 0, _, _, h, _ => by omega
  | _, 0, _, _, h => by omega
  | n + 1, n' + 1, w, h, h' => by
    unfold streamRun
    split
    · rfl
    · rename_i p hp
      obtain ⟨-, h1, h2⟩ := stepPiece_front hp
      rw [streamRun_fuel (n := n) (n' := n') (by simp; omega) (by simp; omega)]

/-- The scan of a stream, one step unfolded: no step. -/
theorem streamOf_none {m : Nat} {w : List Byte} (h : stepPiece w (decodeScan m w) = none) :
    streamOf m w = ([], w) := by
  simp [streamOf, streamRun, h]

/-- The scan of a stream, one step unfolded: a piece, then the scan of the rest. -/
theorem streamOf_some {m : Nat} {w : List Byte} {p : Piece} (h : stepPiece w (decodeScan m w) = some p) :
    streamOf m w = (p :: (streamOf m (w.drop p.bytes.length)).1, (streamOf m (w.drop p.bytes.length)).2) := by
  obtain ⟨-, h1, h2⟩ := stepPiece_front h
  have hf : streamRun m w.length (w.drop p.bytes.length) = streamOf m (w.drop p.bytes.length) :=
    streamRun_fuel (by simp; omega) (by omega)
  rw [← hf]
  simp only [streamOf]
  conv_lhs => unfold streamRun
  rw [h]

/-- Induction along the scan of a stream. -/
theorem streamOf_induction {m : Nat} {P : List Byte → Prop}
    (stop : ∀ w, stepPiece w (decodeScan m w) = none → P w)
    (cont : ∀ w p, stepPiece w (decodeScan m w) = some p → P (w.drop p.bytes.length) → P w) (w : List Byte) : P w := by
  suffices h : ∀ n (w : List Byte), w.length ≤ n → P w from h w.length w le_rfl
  intro n
  induction n with
  | zero =>
    intro w hw
    cases hs : stepPiece w (decodeScan m w) with
    | none => exact stop w hs
    | some p =>
      obtain ⟨-, h1, h2⟩ := stepPiece_front hs
      omega
  | succ n ih =>
    intro w hw
    cases hs : stepPiece w (decodeScan m w) with
    | none => exact stop w hs
    | some p =>
      obtain ⟨-, h1, h2⟩ := stepPiece_front hs
      exact cont w p hs (ih _ (by simp; omega))

/-- The pieces and the tail are the stream, in order and without gap or overlap (R137). -/
theorem streamOf_flatten (m : Nat) (w : List Byte) :
    (streamOf m w).1.flatMap Piece.bytes ++ (streamOf m w).2 = w := by
  induction w using streamOf_induction (m := m) with
  | stop w h => simp [streamOf_none h]
  | cont w p h ih =>
    rw [streamOf_some h]
    simp only [List.flatMap_cons, List.append_assoc, ih]
    exact (stepPiece_front h).1.symm

/-- The scan stops: the step at the tail is a stopping one (R118). -/
theorem streamOf_stops (m : Nat) (w : List Byte) : (decodeScan m (streamOf m w).2).stops = true := by
  induction w using streamOf_induction (m := m) with
  | stop w h => rw [streamOf_none h]; exact (stepPiece_none_iff _ _).1 h
  | cont w p h ih => rw [streamOf_some h]; exact ih

/-- One step of the machine's scan, in terms of the piece. -/
theorem scanEffect_piece {s : State} {p : Piece} (h : stepPiece s.window s.selected = some p) :
    scanEffect s.selected s =
      { s with cur := s.cur + p.bytes.length, events := s.events ++ p.event.toList } := by
  obtain ⟨-, -, hl⟩ := stepPiece_front h
  revert h hl
  cases hk : s.selected with
  | short => simp [stepPiece]
  | wait len => simp [stepPiece]
  | skip1 =>
    simp only [stepPiece, Option.some.injEq]
    rintro rfl -
    simp [scanEffect, skip1Effect, State.advance, Piece.bytes, Piece.event]
  | badlen len =>
    simp only [stepPiece, Option.some.injEq]
    rintro rfl -
    rfl
  | emit len =>
    simp only [stepPiece, Option.some.injEq]
    rintro rfl -
    have hlen : len.toNat ≤ s.window.length := by
      rcases decodeScan_cases s.cfg.maxLen s.window with ⟨e, _⟩ | ⟨e, _⟩ | ⟨e, _⟩ | ⟨e, _⟩ | ⟨e, hl, hh, hr, hc, _⟩ |
        ⟨e, _⟩ <;> rw [State.selected, e] at hk <;> cases hk
      exact hc
    simp [scanEffect, emitEffect, State.takeEvent, State.advance, State.emit, State.frameAt, Piece.bytes,
      Piece.event, Nat.min_eq_left hlen]
  | resync2 len =>
    simp only [stepPiece, Option.some.injEq]
    rintro rfl -
    rfl

/-- The machine's scan loop is the scan of the window. -/
theorem scanLoop_eq : ∀ (n : Nat) (s : State), s.phase = .scanning → s.cur ≤ s.fill → s.window.length < n →
    scanLoop n s = { s with
      cur := s.fill - (streamOf s.cfg.maxLen s.window).2.length
      phase := .stopped
      events := s.events ++ (streamOf s.cfg.maxLen s.window).1.filterMap Piece.event }
  | 0, _, _, _, h => by omega
  | n + 1, s, hp, hc, hn => by
    rw [scanLoop, if_pos hp]
    cases hs : stepPiece s.window s.selected with
    | none =>
      rw [scanEffect_stops ((stepPiece_none_iff _ _).1 hs), streamOf_none hs]
      have hl : s.fill - s.window.length = s.cur := by rw [window_length]; simp [State.avail] at *; omega
      have hloop : ∀ k, scanLoop k s.stop = s.stop := by intro k; cases k <;> simp [scanLoop]
      rw [hloop]
      simp only [hl, List.filterMap_nil, List.append_nil]
      rfl
    | some p =>
      obtain ⟨-, h1, h2⟩ := stepPiece_front hs
      have hw := window_length s
      simp only [State.avail] at hw
      have ew : ({ s with cur := s.cur + p.bytes.length, events := s.events ++ p.event.toList } : State).window
          = s.window.drop p.bytes.length := by simp [State.window, List.drop_drop]
      have ih := scanLoop_eq n { s with cur := s.cur + p.bytes.length, events := s.events ++ p.event.toList } hp
        (by simp only [State.fill] at *; omega) (by rw [ew, List.length_drop]; omega)
      rw [scanEffect_piece hs, streamOf_some hs, ih, ew]
      cases he : p.event <;> simp [he]

/-- The tail of a list is what is left when as much as it is shorter is dropped. -/
theorem drop_to_tail {a b w : List Byte} (h : a ++ b = w) : w.drop (w.length - b.length) = b := by
  subst h
  simp

/-- `FEED`, as a function of the bytes in the buffer and the chunk (R130, R136). -/
theorem feedResult_eq (c : List Byte) (s : State) :
    feedResult c s = { s with
      buf := (streamOf s.cfg.maxLen (s.buf ++ c)).2
      cur := 0
      phase := .idle
      events := s.events ++ (streamOf s.cfg.maxLen (s.buf ++ c)).1.filterMap Piece.event } := by
  have hw : (s.startFeed c).window = s.buf ++ c := by simp [State.window]
  have hl := scanLoop_eq (s.fill + c.length + 1) (s.startFeed c) rfl (by simp) (by rw [hw]; simp)
  rw [feedResult, hl, hw]
  have hf := streamOf_flatten s.cfg.maxLen (s.buf ++ c)
  have hd : (s.buf ++ c).drop ((s.buf ++ c).length - (streamOf s.cfg.maxLen (s.buf ++ c)).2.length)
      = (streamOf s.cfg.maxLen (s.buf ++ c)).2 := drop_to_tail hf
  simp only [State.finishFeed, State.startFeed, hd]

end Sys2Proof.Machine
end

