-- ==== Sys2Proof/Laws/Frame.lean ====
section
/-! SUPPORT. A valid frame in the decoder's own terms, and the catalog entries as frames around a payload. -/

namespace Sys2Proof.Machine

/-- The conditions of a valid frame are those that select `SCAN.EMIT` (R64, R115). -/
theorem isFrame_iff (m : Nat) (f : List Byte) : isFrame m f = true ↔
    6 ≤ f.length ∧ f.length ≤ m ∧ hasHeader f = true ∧ (declaredLen f).toNat = f.length ∧
      hasFooter f f.length = true := by
  simp only [isFrame, Bool.and_eq_true, decide_eq_true_eq, beq_iff_eq, frameHeader, frameLength, frameFooter]
  change ((((6 ≤ _) ∧ _) ∧ _) ∧ _) ∧ _ ↔ _
  constructor
  · rintro ⟨⟨⟨⟨h6, hm⟩, hh⟩, hl⟩, hf⟩
    refine ⟨h6, hm, ?_, ?_, ?_⟩
    · rw [hasHeader_iff]
      match f, h6, hh with
      | a :: b :: r, _, hh => simpa [HEADER] using hh
    · rw [readBE_declaredLen (by omega)] at hl
      simpa using hl
    · have h0 : f[f.length - 2]? = (f.drop (f.length - 2))[0]? := by simp
      have h1 : f[f.length - 1]? = (f.drop (f.length - 2))[1]? := by
        rw [List.getElem?_drop, show f.length - 2 + 1 = f.length - 1 by omega]
      rw [hasFooter_iff, h0, h1, hf]
      exact ⟨rfl, rfl⟩
  · rintro ⟨h6, hm, hh, hl, hf⟩
    refine ⟨⟨⟨⟨h6, hm⟩, ?_⟩, ?_⟩, ?_⟩
    · rw [header_split hh]
      rfl
    · rw [readBE_declaredLen (by omega), hl]
    · obtain ⟨h0, h1⟩ := (hasFooter_iff _ _).1 hf
      rw [List.getElem?_eq_getElem (by omega)] at h0 h1
      rw [List.drop_eq_getElem_cons (by omega), Option.some.inj h0]
      simp only [show f.length - 2 + 1 = f.length - 1 by omega]
      rw [List.drop_eq_getElem_cons (by omega), Option.some.inj h1, List.drop_eq_nil_of_le (by omega)]
      rfl

theorem frameOf_length (p : List Byte) : (frameOf p).length = p.length + 6 := by
  simp [frameOf, HEADER, FOOTER, lenBytes]

theorem declaredLen_frameOf (p : List Byte) : declaredLen (frameOf p) = BitVec.ofNat 16 (p.length + SKELETON) := by
  rw [frameOf, List.append_assoc, declaredLen_header]

/-- An entry that the spec does not give is the frame around its free payload. -/
theorem cmdBytes_unknown (id : CmdId) (h : id ≠ .getTransmitPower) : cmdBytes id = frameOf (payloadOf id) := by
  cases id <;> first | rfl | exact absurd rfl h

/-- The bounds of R100 and R60 on such a payload. -/
theorem payloadOf_length (id : CmdId) : 2 ≤ (payloadOf id).length ∧ (payloadOf id).length ≤ 65529 := by
  simp [payloadOf]
  omega

/-- The entries that end in `22` and `84` are two different entries, neither of them the known one (R100). -/
theorem trailer_commands :
    command22 ∈ unknownCommands ∧ command84 ∈ unknownCommands ∧ command84 ≠ command22 := by
  have a : Config.trailer22 % 7 < 7 := Nat.mod_lt _ (by decide)
  have b : Config.trailer84 % 6 < 6 := Nat.mod_lt _ (by decide)
  rw [command22, command84, show (Config.trailer22 + 1 + Config.trailer84 % 6) % 7
    = (Config.trailer22 % 7 + 1 + Config.trailer84 % 6) % 7 by omega]
  generalize Config.trailer22 % 7 = x at *
  generalize Config.trailer84 % 6 = y at *
  interval_cases x <;> interval_cases y <;> decide

/-- Every encoder operation answers its entry, in every state. -/
theorem exec_command (id : CmdId) (s : State) : exec id.instr s = .next (s.answer (cmdBytes id)) := by
  cases id <;> rfl

end Sys2Proof.Machine
end

