-- ==== Sys2Proof/Laws/Memory.lean ====
section
/-! SUPPORT. The buffer as memory: its list of cells is in the canonical form in every state, so after every operation;
it is what single-byte reads see; and equal buffers are equal lists of cells. -/

namespace Sys2Proof.Machine

theorem memory_wf_of_pairwise : ∀ cs : List Host.Cell, cs.Pairwise (fun a b => a.1 < b.1) → Memory.wf cs = true
  | [], _ => rfl
  | [_], _ => rfl
  | a :: b :: rest, h => by
    rw [List.pairwise_cons] at h
    simp only [Memory.wf, Bool.and_eq_true, decide_eq_true_eq]
    exact ⟨h.1 b (by simp), memory_wf_of_pairwise (b :: rest) h.2⟩

theorem bufferCells_fst (buf : List Byte) : (bufferCells buf).map Prod.fst = List.range buf.length :=
  List.map_fst_zip (by simp)

theorem bufferCells_snd (buf : List Byte) : (bufferCells buf).map Prod.snd = buf :=
  List.map_snd_zip (by simp)

/-- The canonical form: addresses strictly rising. No entry can equal what an unlisted address reads as, since that is
no value at all. -/
theorem bufferCells_wf (buf : List Byte) : Memory.wf (bufferCells buf) = true := by
  apply memory_wf_of_pairwise
  have h : ((bufferCells buf).map Prod.fst).Pairwise (· < ·) := by
    rw [bufferCells_fst]
    exact List.pairwise_lt_range
  exact List.pairwise_map.1 h

/-- Every step leaves memory in the canonical form. -/
theorem step_cells_wf (s s' : State) (_ : step s = .next s') : Memory.wf (bufferCells s'.buf) = true :=
  bufferCells_wf _

theorem reset_cells : bufferCells State.reset.buf = [] := rfl

/-- A cell is listed exactly where a single-byte read gives its value. -/
theorem mem_bufferCells (s : State) (a : Nat) (b : Byte) : (a, b) ∈ bufferCells s.buf ↔ s.readByte a = some b := by
  simp only [State.readByte, List.mem_iff_getElem?, bufferCells, List.getElem?_zip_eq_some]
  constructor
  · rintro ⟨n, h, hb⟩
    obtain ⟨_, e⟩ := List.getElem?_eq_some_iff.1 h
    rw [List.getElem_range] at e
    exact e ▸ hb
  · intro hb
    obtain ⟨hl, -⟩ := List.getElem?_eq_some_iff.1 hb
    exact ⟨a, List.getElem?_eq_some_iff.2 ⟨by simpa using hl, by simp⟩, hb⟩

/-- Equal memories are equal data. -/
theorem bufferCells_inj {b c : List Byte} (h : bufferCells b = bufferCells c) : b = c := by
  rw [← bufferCells_snd b, ← bufferCells_snd c, h]

/-- The append of R47 byte by byte: each byte is written at `FILL`, which then grows by one. -/
theorem startFeed_bytewise (c : List Byte) (s : State) :
    (s.startFeed c).buf = c.foldl (fun buf b => buf ++ [b]) s.buf := by
  rw [State.startFeed_buf]
  induction c generalizing s with
  | nil => simp
  | cons b c ih =>
    have h := ih { s with buf := s.buf ++ [b] }
    simpa using h

end Sys2Proof.Machine
end

