-- ==== Sys2Proof/Laws/PerInstr.lean ====
section
/-! SUPPORT. A family of lemmas over the instructions as syntax: `Port`, which of the block's three kinds of code an
instruction can be read from. -/

namespace Sys2Proof.Laws

/-- The kind of code of an operation: the encoder's port, the scan window, or a request of the host. -/
inductive Source
  | port
  | window
  | host
  deriving DecidableEq, Repr

/-- Where a code stands. -/
def sourceOfCode : Code → Source
  | .command _ => .port
  | .window _ => .window
  | .hostFeed _ => .host
  | .hostReset => .host

/-- The format column of the opcode table. -/
def sourceOf : Instr → Source
  | .encScanc => .port
  | .encScan1 => .port
  | .encStop => .port
  | .encHwver => .port
  | .encFwver => .port
  | .encDevid => .port
  | .encTxpwr => .port
  | .encAnt => .port
  | .scanShort => .window
  | .scanSkip1 => .window
  | .scanBadlen _ => .window
  | .scanWait _ => .window
  | .scanEmit _ => .window
  | .scanResync2 _ => .window
  | .feed _ => .host
  | .reset => .host

/-- An instruction is only ever read from a code of its own kind. -/
theorem source_of_decode (m : Nat) (c : Code) : sourceOfCode c = sourceOf (decode m c) := by
  cases c with
  | command bits => simp only [decode]; cases decodeCommand bits <;> rfl
  | window bytes => simp only [decode]; cases decodeScan m bytes <;> rfl
  | hostFeed chunk => rfl
  | hostReset => rfl

/-- Where the instruction is read from, it is read from its own kind of code, and its encoding is of that kind. -/
def Port.Statement (i : Instr) : Prop :=
  sourceOfCode (encode i) = sourceOf i ∧ ∀ (m : Nat) (c : Code), decode m c = i → sourceOfCode c = sourceOf i

namespace Port

theorem encScanc : Statement .encScanc := ⟨rfl, fun m c h => h ▸ source_of_decode m c⟩
theorem encScan1 : Statement .encScan1 := ⟨rfl, fun m c h => h ▸ source_of_decode m c⟩
theorem encStop : Statement .encStop := ⟨rfl, fun m c h => h ▸ source_of_decode m c⟩
theorem encHwver : Statement .encHwver := ⟨rfl, fun m c h => h ▸ source_of_decode m c⟩
theorem encFwver : Statement .encFwver := ⟨rfl, fun m c h => h ▸ source_of_decode m c⟩
theorem encDevid : Statement .encDevid := ⟨rfl, fun m c h => h ▸ source_of_decode m c⟩
theorem encTxpwr : Statement .encTxpwr := ⟨rfl, fun m c h => h ▸ source_of_decode m c⟩
theorem encAnt : Statement .encAnt := ⟨rfl, fun m c h => h ▸ source_of_decode m c⟩
theorem scanShort : Statement .scanShort := ⟨rfl, fun m c h => h ▸ source_of_decode m c⟩
theorem scanSkip1 : Statement .scanSkip1 := ⟨rfl, fun m c h => h ▸ source_of_decode m c⟩
theorem scanBadlen (len : Len) : Statement (.scanBadlen len) := ⟨rfl, fun m c h => h ▸ source_of_decode m c⟩
theorem scanWait (len : Len) : Statement (.scanWait len) := ⟨rfl, fun m c h => h ▸ source_of_decode m c⟩
theorem scanEmit (len : Len) : Statement (.scanEmit len) := ⟨rfl, fun m c h => h ▸ source_of_decode m c⟩
theorem scanResync2 (len : Len) : Statement (.scanResync2 len) := ⟨rfl, fun m c h => h ▸ source_of_decode m c⟩
theorem feed (chunk : List Byte) : Statement (.feed chunk) := ⟨rfl, fun m c h => h ▸ source_of_decode m c⟩
theorem reset : Statement .reset := ⟨rfl, fun m c h => h ▸ source_of_decode m c⟩

end Port

end Sys2Proof.Laws
end

