-- ==== Sys2Proof/Laws/Step.lean ====
section
/-! SUPPORT. One inversion lemma for `fetch`, one for `step`, and one step of a run. -/

namespace Sys2Proof.Machine

/-- What `fetch` can answer: the decoder's own move, or the operation that the host presents; and it changes nothing
but the inbox. -/
theorem fetch_cases (s : State) : ∃ ib : List Request, (fetch s).2 = { s with inbox := ib } ∧
    ((fetch s).1 = ownAction s ∨
      ∃ r rest, s.inbox = r :: rest ∧ (s.phase = .idle ∨ r.after = 0) ∧ (fetch s).1 = serve s r.op) := by
  unfold fetch
  split
  · exact ⟨s.inbox, rfl, .inl rfl⟩
  · rename_i r rest h
    split_ifs with hc
    · exact ⟨rest, rfl, .inr ⟨r, rest, h, hc, rfl⟩⟩
    · exact ⟨_, rfl, .inl rfl⟩

/-- The decoder's own move, by phase. -/
theorem ownAction_cases (s : State) :
    (s.phase = .idle ∧ ownAction s = .rest) ∨
    (s.phase = .scanning ∧ ownAction s = .run s.selected.instr) ∨
    (s.phase = .stopped ∧ ownAction s = .endFeed) := by
  unfold ownAction
  split
  · exact .inl ⟨‹_›, rfl⟩
  · exact .inr (.inl ⟨‹_›, rfl⟩)
  · exact .inr (.inr ⟨‹_›, rfl⟩)

theorem beginFeed_next {c : List Byte} {s t : State} :
    beginFeed c s = .next t ↔ s.phase = .idle ∧ s.cfg.allowsChunk c.length = true ∧ t = s.startFeed c :=
  feedGuard_next

/-- Everything a step that answers can have done: one operation of the opcode table, the beginning of a `FEED`, its
end, or nothing; each on the state with something taken out of the inbox. -/
theorem step_cases {s s' : State} (h : step s = .next s') : ∃ ib : List Request,
    (∃ i, exec i { s with inbox := ib } = .next s') ∨
    (∃ c, s.phase = .idle ∧ s.cfg.allowsChunk c.length = true ∧ s' = ({ s with inbox := ib } : State).startFeed c) ∨
    (s.phase = .stopped ∧ s' = ({ s with inbox := ib } : State).finishFeed) ∨
    s' = { s with inbox := ib } := by
  obtain ⟨ib, h2, h1⟩ := fetch_cases s
  refine ⟨ib, ?_⟩
  rw [step, h2] at h
  cases ha : (fetch s).1 with
  | run i =>
    rw [ha] at h
    exact .inl ⟨i, h⟩
  | beginFeed c =>
    rw [ha] at h
    obtain ⟨hp, hc, rfl⟩ := beginFeed_next.1 h
    exact .inr (.inl ⟨c, hp, hc, rfl⟩)
  | endFeed =>
    rw [ha] at h h1
    refine .inr (.inr (.inl ⟨?_, (Host.Outcome.next.inj h).symm⟩))
    rcases h1 with h1 | ⟨r, rest, -, -, h1⟩
    · rcases ownAction_cases s with ⟨-, e⟩ | ⟨-, e⟩ | ⟨hp, -⟩
      · rw [e] at h1
        cases h1
      · rw [e] at h1
        cases h1
      · exact hp
    · cases hop : r.op <;> rw [hop] at h1 <;> cases h1
  | rest =>
    rw [ha] at h
    exact .inr (.inr (.inr (Host.Outcome.next.inj h).symm))

/-- One step of a run, for any machine of the host's interface. -/
theorem coreRun_succ (M : Host.Core) (n : Nat) (s t : M.State) (h : M.step s = .next t) : M.run (n + 1) s = M.run n t := by
  rw [Host.Core.run, h]

/-- One step of a run of this machine. -/
theorem run_succ (n : Nat) (s t : State) (h : step s = .next t) : core.run (n + 1) s = core.run n t :=
  coreRun_succ core n s t h

end Sys2Proof.Machine
end

