-- ==== Sys2Proof/Laws/Window.lean ====
section
/-! SUPPORT. The decoder reads the window `BUF[CUR..FILL)`; the spec writes its conditions by offsets of `BUF`. These
lemmas say, condition by condition, that they are the same. -/

namespace Sys2Proof.Machine

theorem window_getElem? (s : State) (j : Nat) : s.window[j]? = s.readByte (s.cur + j) := by
  simp [State.window, State.readByte]

theorem memRead_one_iff (s : State) (a : Nat) (b : Byte) : s.memRead a 1 = some b.toNat ↔ s.readByte a = some b := by
  simp only [State.memRead, readBE_one, State.readByte]
  cases s.buf[a]? <;> simp [BitVec.toNat_inj]

theorem hasHeader_window (s : State) (h : s.cur ≤ s.fill) : hasHeader s.window = true ↔ s.hdr := by
  simp only [hasHeader, State.window, readBE_drop _ _ _ _ h, State.hdr, State.memRead, Bool.and_eq_true, beq_iff_eq,
    Nat.add_zero]

theorem declaredLen_window (s : State) (h : s.cur ≤ s.fill) (h6 : SKELETON ≤ s.avail) (len : Len) :
    s.lenIs len ↔ declaredLen s.window = len := by
  have h4 : 4 ≤ s.window.length := by
    rw [window_length]
    exact Nat.le_trans (by decide) h6
  have h2 : readBE s.window 2 2 = s.memRead (s.cur + 2) 2 := by
    rw [State.window, readBE_drop _ _ _ _ h]
    rfl
  rw [State.lenIs, ← h2, readBE_declaredLen h4]
  simp [BitVec.toNat_inj]

theorem hasFooter_window (s : State) (h : s.cur ≤ s.fill) (len : Len) (h2 : 2 ≤ len.toNat) :
    hasFooter s.window len.toNat = true ↔ s.ftr len := by
  simp only [hasFooter, State.window, readBE_drop _ _ _ _ h, State.ftr, State.memRead, Bool.and_eq_true, beq_iff_eq,
    show s.cur + (len.toNat - 2) = s.cur + len.toNat - 2 by omega,
    show s.cur + (len.toNat - 1) = s.cur + len.toNat - 1 by omega]

/-- Where the selected step is `SCAN.EMIT`, its length is in range and there (R115). -/
theorem selected_emit {s : State} {len : Len} (h : s.selected = .emit len) :
    MIN_LEN ≤ len.toNat ∧ len.toNat ≤ s.cfg.maxLen ∧ len.toNat ≤ s.window.length := by
  rcases decodeScan_cases s.cfg.maxLen s.window with ⟨e, _⟩ | ⟨e, _⟩ | ⟨e, _⟩ | ⟨e, _⟩ | ⟨e, _, _, hr, hc, _⟩ |
    ⟨e, _⟩ <;> rw [State.selected, e] at h <;> cases h
  exact ⟨((lenInRange_iff _ _).1 hr).1, ((lenInRange_iff _ _).1 hr).2, hc⟩

/-- Every step but `SCAN.SHORT` has its 6 bytes (R49). -/
theorem selected_has_skeleton {s : State} (h : s.selected ≠ .short) : SKELETON ≤ s.window.length := by
  by_contra hc
  exact h (decodeScan_short (by omega))

end Sys2Proof.Machine
end

