-- ==== Sys2Proof/Tests/Slice0.lean ====
section
/-! SUPPORT. Tests of the model against spec/95_test_vectors.md and the rules' own examples, and, for every statement of
Certificates that has hypotheses, a concrete state and operands that meet them (one for each clause). -/

namespace Sys2Proof.Tests

open Sys2Proof Sys2Proof.Machine

/-! Helpers -/

/-- The one catalog frame the spec gives (R98). -/
def txpwr : List Byte := [0xC8, 0x8C, 0x00, 0x08, 0x12, 0x1A, 0x0D, 0x0A]

/-- Inside a `FEED`, the cursor at an offset. -/
def scanning (buf : List Byte) (cur : Nat) : State := { State.reset with buf := buf, cur := cur, phase := .scanning }

/-- Between `FEED`s, with a tail. -/
def holding (buf : List Byte) : State := { State.reset with buf := buf }

/-- A decoder whose scan has stopped with the cursor at `cur`. -/
def stopped (buf : List Byte) (cur : Nat) : State :=
  { State.reset with buf := buf, cur := cur, phase := .stopped }

/-- A build with another `MAX_LEN` and `MAX_CHUNK`. -/
def built (maxLen : Nat) (maxChunk : Option Nat) (s : State) : State := { s with cfg := ⟨maxLen, maxChunk⟩ }

/-- The outcome is a next state with a property. -/
def answers (o : Host.Outcome State Fault Refusal) (p : State → Bool) : Bool :=
  match o with
  | .next t => p t
  | .fault _ => false
  | .refused _ => false

/-- The outcome is this refusal. -/
def refuses (o : Host.Outcome State Fault Refusal) (r : Refusal) : Bool :=
  match o with
  | .next _ => false
  | .fault _ => false
  | .refused r' => r' == r

/-! WellFormed: each check refuses an ill-formed term. -/

theorem smoke_badlen_in_range : (Instr.scanBadlen 8).wellFormed Config.standard = false := by decide
theorem smoke_badlen_above_max : (Instr.scanBadlen 16).wellFormed ⟨12, none⟩ = true := by decide
theorem smoke_wait_of_six : (Instr.scanWait 6).wellFormed Config.standard = false := by decide
theorem smoke_wait_above_max : (Instr.scanWait 16).wellFormed ⟨12, none⟩ = false := by decide
theorem smoke_emit_below_min : (Instr.scanEmit 5).wellFormed Config.standard = false := by decide
theorem smoke_resync2_above_max : (Instr.scanResync2 16).wellFormed ⟨12, none⟩ = false := by decide
theorem smoke_feed_too_long : (Instr.feed [1, 2, 3]).wellFormed ⟨65535, some 2⟩ = false := by decide

/-! Decode: words written out from R72 (command codes) and R65 (windows, byte `CUR` first). -/

theorem decode_scanc : decodeTableWord 8 0b000 = some .encScanc := by decide
theorem decode_scan1 : decodeTableWord 8 0b001 = some .encScan1 := by decide
theorem decode_stop : decodeTableWord 8 0b010 = some .encStop := by decide
theorem decode_hwver : decodeTableWord 8 0b011 = some .encHwver := by decide
theorem decode_fwver : decodeTableWord 8 0b100 = some .encFwver := by decide
theorem decode_devid : decodeTableWord 8 0b101 = some .encDevid := by decide
theorem decode_txpwr : decodeTableWord 8 0b110 = some .encTxpwr := by decide
theorem decode_ant : decodeTableWord 8 0b111 = some .encAnt := by decide
/-- Bits 31..16 `1100 1000 1000 1100`, bits 15..0 the length 5. -/
theorem decode_badlen : decodeTableWord 32 0b11001000100011000000000000000101 = some (.scanBadlen 5) := by decide
/-- The same with the length 8 and two more bytes only. -/
theorem decode_wait : decodeTableWord 32 0b11001000100011000000000000001000 = some (.scanWait 8) := by decide
/-- Bits 31..16 `1000 1100 1100 1000`: the header bytes the other way round. -/
theorem decode_skip1 : decodeTableWord 32 0b10001100110010000000000000001000 = some .scanSkip1 := by decide
/-- V7: length 6 and the footer `0000 1101 0000 1010`. -/
theorem decode_emit : decodeTableWord 48 0b110010001000110000000000000001100000110100001010 = some (.scanEmit 6) := by
  decide
/-- Length 6 and the footer bytes the other way round. -/
theorem decode_resync2 : decodeTableWord 48 0b110010001000110000000000000001100000101000001101 = some (.scanResync2 6) := by
  decide
/-- V25: `C8 8C 00 00` alone is too short to be looked at. -/
theorem decode_short : decode 65535 (.window [0xC8, 0x8C, 0x00, 0x00]) = .scanShort := by decide
/-- V15: with `MAX_LEN = 12` a length of 16 is out of range. -/
theorem decode_badlen_max : decode 12 (.window ([0xC8, 0x8C, 0x00, 0x10] ++ txpwr)) = .scanBadlen 16 := by decide

/-! The encoder (E-1 to E-4) -/

theorem test_txpwr : exec .encTxpwr State.reset = .next { State.reset with encOut := [txpwr] } := rfl
/-- E-2, E-4: twice, and during a `FEED`. -/
theorem test_txpwr_twice : execAll [.encTxpwr, .encTxpwr] (scanning [1, 2] 1) =
    .next { scanning [1, 2] 1 with encOut := [txpwr, txpwr] } := rfl
theorem test_scanc : exec .encScanc State.reset = .next { State.reset with encOut := [cmdBytes .scanContinuous] } := rfl
theorem test_scan1 : exec .encScan1 State.reset = .next { State.reset with encOut := [cmdBytes .scanSingle] } := rfl
theorem test_stop : exec .encStop State.reset = .next { State.reset with encOut := [cmdBytes .scanStop] } := rfl
theorem test_hwver : exec .encHwver State.reset = .next { State.reset with encOut := [cmdBytes .getHardwareVersion] } :=
  rfl
theorem test_fwver : exec .encFwver State.reset = .next { State.reset with encOut := [cmdBytes .getFirmwareVersion] } :=
  rfl
theorem test_devid : exec .encDevid State.reset = .next { State.reset with encOut := [cmdBytes .getDeviceId] } := rfl
theorem test_ant : exec .encAnt State.reset = .next { State.reset with encOut := [cmdBytes .getAntennaStatus] } := rfl

/-! The scan steps (the examples of R111 to R116) -/

theorem test_short : answers (exec .scanShort (scanning [0xC8, 0x8C, 0x00] 0))
    (fun t => t.phase == .stopped && t.cur == 0 && t.buf.length == 3 && t.events == []) = true := by decide
/-- `W = 0`. -/
theorem test_short_at_end : answers (exec .scanShort (scanning txpwr 8)) (fun t => t.phase == .stopped && t.cur == 8) =
    true := by decide
theorem test_skip1 : answers (exec .scanSkip1 (scanning (0x00 :: txpwr) 0))
    (fun t => t.phase == .scanning && t.cur == 1 && t.events == []) = true := by decide
/-- R112: `C8` before a header is stepped over alone. -/
theorem test_skip1_half_header : answers (exec .scanSkip1 (scanning (0xC8 :: txpwr) 0)) (fun t => t.cur == 1) = true := by
  decide
theorem test_badlen : answers (exec (.scanBadlen 0) (scanning [0xC8, 0x8C, 0x00, 0x00, 0x11, 0x22, 0x33, 0x44] 0))
    (fun t => t.phase == .scanning && t.cur == 2 && t.events == [.resync 2]) = true := by decide
/-- V11: length 0 right after a footer. -/
theorem test_badlen_after_footer :
    answers (exec (.scanBadlen 0) (scanning (txpwr ++ [0xC8, 0x8C, 0x00, 0x00, 0x11, 0x22, 0x33, 0x44]) 8))
      (fun t => t.cur == 10 && t.events == [.resync 2]) = true := by decide
theorem test_wait : answers (exec (.scanWait 8) (scanning (txpwr.take 7) 0))
    (fun t => t.phase == .stopped && t.cur == 0 && t.buf.length == 7 && t.events == []) = true := by decide
/-- V16b: `C8 00` reads as 51200. -/
theorem test_wait_long : answers (exec (.scanWait 51200) (scanning [0x8C, 0xC8, 0x8C, 0xC8, 0x00, 0x08, 0x12, 0x1A] 1))
    (fun t => t.phase == .stopped && t.cur == 1) = true := by decide
theorem test_emit : answers (exec (.scanEmit 8) (scanning txpwr 0))
    (fun t => t.phase == .scanning && t.cur == 8 && t.events == [.validFrame txpwr]) = true := by decide
/-- V22: one byte more than the frame. -/
theorem test_emit_one_over :
    answers (exec (.scanEmit 9) (scanning [0xC8, 0x8C, 0x00, 0x09, 0x12, 0x34, 0x56, 0x0D, 0x0A, 0x99] 0))
      (fun t => t.cur == 9 && t.events == [.validFrame [0xC8, 0x8C, 0x00, 0x09, 0x12, 0x34, 0x56, 0x0D, 0x0A]]) =
    true := by decide
theorem test_resync2 : answers (exec (.scanResync2 8) (scanning [0xC8, 0x8C, 0x00, 0x08, 0, 0, 0, 0] 0))
    (fun t => t.phase == .scanning && t.cur == 2 && t.events == [.resync 2]) = true := by decide
/-- V24: the footer bytes the other way round. -/
theorem test_resync2_swapped : answers (exec (.scanResync2 8) (scanning [0xC8, 0x8C, 0, 8, 0x12, 0x1A, 0x0A, 0x0D] 0))
    (fun t => t.cur == 2 && t.events == [.resync 2]) = true := by decide

/-! `FEED` and `RESET` -/

/-- V5. -/
theorem test_feed_stray_header :
    answers (exec (.feed ([0xC8, 0x8C, 0x00, 0x08, 0x00, 0x00, 0x00, 0x00] ++ txpwr)) State.reset)
      (fun t => t.events == [.resync 2, .validFrame txpwr] && t.buf == [] && t.cur == 0 && t.phase == .idle) = true := by
  decide
/-- V15: `MAX_LEN = 12`, no stall. -/
theorem test_feed_max_len :
    answers (exec (.feed ([0xC8, 0x8C, 0x00, 0x10] ++ txpwr)) (built 12 none State.reset))
      (fun t => t.events == [.resync 2, .validFrame txpwr] && t.buf == []) = true := by decide
/-- V21: the tail `C8 8C 00` is dropped without an event. -/
theorem test_reset : exec .reset (holding [0xC8, 0x8C, 0x00]) = .next State.reset := rfl
/-- R182: a reset during a `FEED` keeps what has been delivered. -/
theorem test_reset_during_feed :
    answers (execAll [.scanEmit 8, .reset] (scanning (txpwr ++ txpwr) 0))
      (fun t => t.events == [.validFrame txpwr] && t.buf == [] && t.cur == 0 && t.phase == .idle) = true := by decide

/-! The host's two questions: a placed word runs as the first instruction after reset. -/

theorem test_place_command : step (State.reset.withFetchWord 8 6) = .next { State.reset with encOut := [txpwr] } := rfl
theorem test_place_window : answers (step (State.reset.withFetchWord 32 0xC88C0000))
    (fun t => t.cur == 2 && t.events == [.resync 2]) = true := by decide

/-! Witnesses: states and operands that meet the hypotheses of a statement. -/

theorem witness_DecodeReadsBackEveryInstruction :
    Config.standard.legal = true ∧ (Instr.scanWait 7).wellFormed Config.standard = true ∧
    (Instr.scanEmit 65535).wellFormed Config.standard = true ∧ (Instr.scanBadlen 5).wellFormed Config.standard = true ∧
    (Instr.scanResync2 6).wellFormed Config.standard = true := by decide

theorem witness_WindowWordFixesTheStep :
    decodeScan 65535 [0xC8, 0x8C, 0, 5, 0, 0] = .badlen 5 ∧ decodeScan 65535 [0xC8, 0x8C, 0, 7, 0, 0] = .wait 7 ∧
    decodeScan 65535 [0xC8, 0x8C, 0, 6, 0x0D, 0x0A] = .emit 6 ∧ decodeScan 65535 [0xC8, 0x8C, 0, 6, 0, 0] = .resync2 6 ∧
    decodeScan 65535 [0x8C, 0xC8, 0, 6, 0, 0] = .skip1 := by decide

theorem witness_FrameFormatIsExact :
    isFrame 65535 [0xC8, 0x8C, 0, 6, 0x0D, 0x0A] = true ∧ isFrame 8 txpwr = true ∧
    ([] : List Byte).length ≤ 65529 ∧ (txpwr : List Byte).length ≤ 65529 := by decide

/-- V7 and V19: a frame without and one with a command byte. -/
theorem witness_PayloadIncludesTheCommandByte :
    isFrame 65535 [0xC8, 0x8C, 0, 6, 0x0D, 0x0A] = true ∧ ([0xC8, 0x8C, 0, 6, 0x0D, 0x0A] : List Byte).length = 6 ∧
    isFrame 65535 [0xC8, 0x8C, 0, 7, 0x41, 0x0D, 0x0A] = true ∧
    frameCommand [0xC8, 0x8C, 0, 7, 0x41, 0x0D, 0x0A] = some 0x41 := by decide

theorem witness_MemReadIsBigEndian :
    (holding [0x01, 0x02]).readByte 0 = some 0x01 ∧ (holding [0x01, 0x02]).readByte (0 + 1) = some 0x02 ∧
    (holding [0x01, 0x02]).memRead 0 2 = some 258 ∧ (holding [0x01, 0x02]).memRead 1 2 = none ∧
    (holding [0x01, 0x02]).cur + 2 ≤ (holding [0x01, 0x02]).fill := by decide

theorem witness_ScanReadsAreInBounds :
    6 ≤ (scanning txpwr 0).avail ∧ (scanning txpwr 0).lenIs 8 ∧ (scanning txpwr 0).inRange 8 ∧
    (scanning txpwr 0).cur + 8 ≤ (scanning txpwr 0).fill := by decide

theorem witness_SelectedStepIsTheRowThatApplies :
    (scanning txpwr 0).cur ≤ (scanning txpwr 0).fill ∧ (scanning txpwr 0).rowApplies (.emit 8) ∧
    (scanning txpwr 3).cur ≤ (scanning txpwr 3).fill ∧ (scanning txpwr 3).rowApplies .short := by decide

theorem witness_ExactlyOneRowApplies : (scanning txpwr 2).cur ≤ (scanning txpwr 2).fill := by decide

theorem witness_ScanShortStopsAndKeepsTheBytes :
    (scanning txpwr 3).phase = .scanning ∧ (scanning txpwr 3).cur ≤ (scanning txpwr 3).fill ∧
    (scanning txpwr 3).fill - (scanning txpwr 3).cur < 6 := by decide

/-- Either header byte alone may differ, with exactly 6 bytes there. -/
theorem witness_ScanSkip1AdvancesOneByteSilently :
    (scanning txpwr 2).phase = .scanning ∧ (scanning txpwr 2).cur ≤ (scanning txpwr 2).fill ∧
    6 ≤ (scanning txpwr 2).fill - (scanning txpwr 2).cur ∧ (scanning txpwr 2).readByte 2 ≠ some 0xC8 ∧
    (scanning [0xC8, 0xC8, 0x8C, 0, 6, 0] 0).readByte 0 = some 0xC8 ∧
    (scanning [0xC8, 0xC8, 0x8C, 0, 6, 0] 0).readByte (0 + 1) ≠ some 0x8C := by decide

/-- The boundary values on both sides of the accepted range: 5, and 13 where `MAX_LEN = 12`. -/
theorem witness_ScanBadlenResyncsByTwo :
    (scanning [0xC8, 0x8C, 0, 5, 0, 0] 0).readByte 0 = some 0xC8 ∧
    (scanning [0xC8, 0x8C, 0, 5, 0, 0] 0).readByte (0 + 1) = some 0x8C ∧
    (scanning [0xC8, 0x8C, 0, 5, 0, 0] 0).memRead (0 + 2) 2 = some (5 : Len).toNat ∧ (5 : Len).toNat < 6 ∧
    6 ≤ (scanning [0xC8, 0x8C, 0, 5, 0, 0] 0).fill - 0 ∧ (scanning [0xC8, 0x8C, 0, 5, 0, 0] 0).phase = .scanning ∧
    (built 12 none (scanning [0xC8, 0x8C, 0, 13, 0, 0] 0)).memRead (0 + 2) 2 = some (13 : Len).toNat ∧
    (built 12 none (scanning [0xC8, 0x8C, 0, 13, 0, 0] 0)).cfg.maxLen < (13 : Len).toNat := by decide

/-- One byte short of the frame, `L = 7`. -/
theorem witness_ScanWaitStopsAndKeepsTheBytes :
    (scanning [0xC8, 0x8C, 0, 7, 0, 0] 0).phase = .scanning ∧ 6 ≤ (scanning [0xC8, 0x8C, 0, 7, 0, 0] 0).fill - 0 ∧
    (scanning [0xC8, 0x8C, 0, 7, 0, 0] 0).readByte 0 = some 0xC8 ∧
    (scanning [0xC8, 0x8C, 0, 7, 0, 0] 0).readByte (0 + 1) = some 0x8C ∧
    (scanning [0xC8, 0x8C, 0, 7, 0, 0] 0).memRead (0 + 2) 2 = some (7 : Len).toNat ∧ 6 ≤ (7 : Len).toNat ∧
    (7 : Len).toNat ≤ (scanning [0xC8, 0x8C, 0, 7, 0, 0] 0).cfg.maxLen ∧
    (scanning [0xC8, 0x8C, 0, 7, 0, 0] 0).fill < 0 + (7 : Len).toNat := by decide

/-- The shortest frame, complete to the byte (V7). -/
theorem witness_ScanEmitReportsTheFrame :
    (scanning [0xC8, 0x8C, 0, 6, 0x0D, 0x0A] 0).phase = .scanning ∧
    6 ≤ (scanning [0xC8, 0x8C, 0, 6, 0x0D, 0x0A] 0).fill - 0 ∧
    (scanning [0xC8, 0x8C, 0, 6, 0x0D, 0x0A] 0).readByte 0 = some 0xC8 ∧
    (scanning [0xC8, 0x8C, 0, 6, 0x0D, 0x0A] 0).readByte (0 + 1) = some 0x8C ∧
    (scanning [0xC8, 0x8C, 0, 6, 0x0D, 0x0A] 0).memRead (0 + 2) 2 = some (6 : Len).toNat ∧ 6 ≤ (6 : Len).toNat ∧
    (6 : Len).toNat ≤ (scanning [0xC8, 0x8C, 0, 6, 0x0D, 0x0A] 0).cfg.maxLen ∧
    0 + (6 : Len).toNat ≤ (scanning [0xC8, 0x8C, 0, 6, 0x0D, 0x0A] 0).fill ∧
    (scanning [0xC8, 0x8C, 0, 6, 0x0D, 0x0A] 0).readByte (0 + (6 : Len).toNat - 2) = some 0x0D ∧
    (scanning [0xC8, 0x8C, 0, 6, 0x0D, 0x0A] 0).readByte (0 + (6 : Len).toNat - 1) = some 0x0A := by decide

/-- Either footer byte alone may differ. -/
theorem witness_ScanResync2SkipsOnlyTheHeader :
    (scanning [0xC8, 0x8C, 0, 6, 0x0D, 0x0B] 0).phase = .scanning ∧
    6 ≤ (scanning [0xC8, 0x8C, 0, 6, 0x0D, 0x0B] 0).fill - 0 ∧
    (scanning [0xC8, 0x8C, 0, 6, 0x0D, 0x0B] 0).readByte 0 = some 0xC8 ∧
    (scanning [0xC8, 0x8C, 0, 6, 0x0D, 0x0B] 0).readByte (0 + 1) = some 0x8C ∧
    (scanning [0xC8, 0x8C, 0, 6, 0x0D, 0x0B] 0).memRead (0 + 2) 2 = some (6 : Len).toNat ∧
    0 + (6 : Len).toNat ≤ (scanning [0xC8, 0x8C, 0, 6, 0x0D, 0x0B] 0).fill ∧
    (scanning [0xC8, 0x8C, 0, 6, 0x0D, 0x0B] 0).readByte (0 + (6 : Len).toNat - 1) ≠ some 0x0A ∧
    (scanning [0xC8, 0x8C, 0, 6, 0x0C, 0x0A] 0).readByte (0 + (6 : Len).toNat - 2) ≠ some 0x0D := by decide

/-- Two different states with one window. -/
theorem witness_ScanStepReadsOnlyTheWindow :
    (scanning txpwr 0).window = (scanning (0x55 :: txpwr) 1).window ∧
    (scanning txpwr 0).cfg = (scanning (0x55 :: txpwr) 1).cfg ∧
    (scanning txpwr 0).phase = (scanning (0x55 :: txpwr) 1).phase ∧
    answers (exec (ScanStep.emit 8).instr (scanning txpwr 0)) (fun _ => true) = true := by decide

theorem witness_UnselectedScanStepIsRefused :
    (holding txpwr).phase ≠ .scanning ∧ (scanning txpwr 0).phase = .scanning ∧ (scanning txpwr 0).selected ≠ .skip1 := by
  decide

theorem witness_ScanMakesProgressAndStops :
    (scanning txpwr 0).cur ≤ (scanning txpwr 0).fill ∧ (scanning txpwr 0).phase = .scanning ∧
    answers (exec (ScanStep.emit 8).instr (scanning txpwr 0)) (fun _ => true) = true ∧
    answers (exec ScanStep.short.instr (scanning txpwr 8)) (fun _ => true) = true := by decide

/-- An abandoned header: `q` is the offset the step stood at. -/
theorem witness_NoHeaderStartIsSteppedOver :
    answers (exec (ScanStep.badlen 5).instr (scanning [0xC8, 0x8C, 0, 5, 0, 0] 0)) (fun t => decide (0 < t.cur)) = true ∧
    (scanning [0xC8, 0x8C, 0, 5, 0, 0] 0).readByte 0 = some 0xC8 ∧
    (scanning [0xC8, 0x8C, 0, 5, 0, 0] 0).readByte (0 + 1) = some 0x8C := by decide

theorem witness_FrameAtTheCursorIsEmitted :
    (scanning (0x55 :: txpwr ++ [0x99]) 1).phase = .scanning ∧
    (scanning (0x55 :: txpwr ++ [0x99]) 1).window = txpwr ++ [0x99] ∧
    isFrame (scanning (0x55 :: txpwr ++ [0x99]) 1).cfg.maxLen txpwr = true := by decide

theorem witness_DecisionsDependOnTheStreamOnly :
    (decodeScan 65535 txpwr).stops = false ∧ (decodeScan 65535 (txpwr.take 7)).stops = true ∧
    (decodeScan 65535 (txpwr.take 5)).stops = true := by decide

/-- Two frames that differ in their payload only. -/
theorem witness_SelectionReadsHeaderLengthAndFooterOnly :
    ∀ j, j < 4 ∨ (declaredLen txpwr).toNat ≤ j + 2 ∧ j < (declaredLen txpwr).toNat →
      txpwr[j]? = ([0xC8, 0x8C, 0x00, 0x08, 0x99, 0x77, 0x0D, 0x0A] : List Byte)[j]? := by
  intro j hj
  have h : (declaredLen txpwr).toNat = 8 := by decide
  rw [h] at hj
  have h8 : j < 8 := by omega
  revert hj
  revert h8
  revert j
  decide

theorem witness_DefaultMaxLenRejectsNoLongFrame :
    decodeScan 65535 [0xC8, 0x8C, 0, 5, 0, 0] = .badlen 5 ∧ hasHeader [0xC8, 0x8C, 0, 13, 0, 0] = true ∧
    12 < (declaredLen [0xC8, 0x8C, 0, 13, 0, 0]).toNat := by decide

theorem witness_CatalogEntriesAreFrames : (cmdBytes .getTransmitPower).length ≤ 8 := by decide

theorem witness_EncoderAndDecoderAreIndependent :
    (∃ c, Instr.feed txpwr = .feed c) ∧ answers (exec (.feed txpwr) State.reset) (fun _ => true) = true :=
  ⟨⟨_, rfl⟩, by decide⟩

/-- Unbounded chunks, and a chunk of exactly `MAX_CHUNK` bytes. -/
theorem witness_FeedIsAppendScanCompact :
    (holding [0xC8]).phase = .idle ∧ (holding [0xC8]).cfg.allowsChunk txpwr.length = true ∧
    (built 65535 (some 8) State.reset).cfg.allowsChunk txpwr.length = true := by decide

theorem witness_FeedAlwaysEndsQuiescent :
    (built 6 (some 1) State.reset).cfg.legal = true ∧ (holding txpwr).cfg.legal = true ∧ (holding txpwr).phase = .idle ∧
    (holding txpwr).cfg.allowsChunk 3 = true := by decide

/-- Both cases of R27. -/
theorem witness_EmptyChunkChangesNothing :
    (holding [1, 2, 3, 4, 5]).quiescent ∧ (holding (txpwr.take 7)).quiescent := by decide

theorem witness_FeedOutsideTheContractIsRefused :
    (scanning txpwr 0).phase ≠ .idle ∧ (built 65535 (some 2) State.reset).phase = .idle ∧
    (built 65535 (some 2) State.reset).cfg.maxChunk = some 2 ∧ 2 < ([1, 2, 3] : List Byte).length := by decide

theorem witness_PowerOnIsTheResetState : exec .reset (holding txpwr) = .next State.reset := rfl

/-- A path of one step and the reset after it. -/
theorem witness_ResetDuringFeedDeliversAPrefix :
    answers (exec (.feed txpwr) State.reset) (fun _ => true) = true ∧
    scanPath { State.reset with buf := State.reset.buf ++ txpwr, cur := 0, phase := .scanning } [.emit 8]
      { State.reset with buf := txpwr, cur := 8, phase := .scanning, events := [.validFrame txpwr] } :=
  ⟨by decide, rfl⟩

theorem witness_ChunkBoundariesDoNotMatter :
    (built 65535 (some 8) State.reset).quiescent ∧ [txpwr.take 3, [], txpwr.drop 3].flatten = [txpwr].flatten ∧
    (∀ c ∈ [txpwr.take 3, [], txpwr.drop 3], (built 65535 (some 8) State.reset).cfg.allowsChunk c.length = true) ∧
    (∀ d ∈ [txpwr], (built 65535 (some 8) State.reset).cfg.allowsChunk d.length = true) := by decide

theorem witness_EveryByteIsAccountedFor :
    State.reset.buf = [] ∧ answers (execAll ([txpwr.take 3, txpwr.drop 3].map .feed) State.reset) (fun _ => true) = true := by
  decide

theorem witness_SilentlySkippedBytesAreTheSkip1Steps :
    (scanning (0x55 :: txpwr) 0).cur ≤ (scanning (0x55 :: txpwr) 0).fill ∧
    scanPath (scanning (0x55 :: txpwr) 0) [.skip1, .emit 8]
      { scanning (0x55 :: txpwr) 9 with events := [.validFrame txpwr] } :=
  ⟨by decide, rfl⟩

theorem witness_BufferNeverOverflows :
    (built 65535 (some 1) (holding (txpwr.take 7))).cfg.legal = true ∧ (built 65535 (some 1) (holding (txpwr.take 7))).quiescent ∧
    (built 65535 (some 1) (holding (txpwr.take 7))).cfg.allowsChunk ([0x0A] : List Byte).length = true ∧
    scanPath { built 65535 (some 1) (holding (txpwr.take 7)) with buf := txpwr.take 7 ++ [0x0A], cur := 0, phase := .scanning } []
      { built 65535 (some 1) (holding (txpwr.take 7)) with buf := txpwr.take 7 ++ [0x0A], cur := 0, phase := .scanning } :=
  ⟨by decide, by decide, by decide, rfl⟩

theorem witness_CatalogRoundTrip :
    State.reset.quiescent ∧ State.reset.buf = [] ∧ (cmdBytes .getTransmitPower).length ≤ State.reset.cfg.maxLen ∧
    State.reset.cfg.allowsChunk (cmdBytes .getTransmitPower).length = true ∧
    isFrame State.reset.cfg.maxLen [0xC8, 0x8C, 0, 6, 0x0D, 0x0A] = true := by decide

theorem witness_GarbageLeavesAtMostFiveBytes :
    (built 65535 (some 4) State.reset).quiescent ∧ (built 65535 (some 4) State.reset).buf = [] ∧
    noHeaderPair [[1, 2, 3, 0xC8], [], [5, 6, 0xC8]].flatten = true ∧
    ∀ c ∈ ([[1, 2, 3, 0xC8], [], [5, 6, 0xC8]] : List (List Byte)),
      (built 65535 (some 4) State.reset).cfg.allowsChunk c.length = true := by decide

theorem witness_BackToBackFramesAreAllEmitted :
    State.reset.quiescent ∧ State.reset.buf = [] ∧
    (∀ f ∈ [txpwr, [0xC8, 0x8C, 0, 6, 0x0D, 0x0A]], isFrame State.reset.cfg.maxLen f = true) ∧
    State.reset.cfg.allowsChunk ([txpwr, [0xC8, 0x8C, 0, 6, 0x0D, 0x0A]].flatten).length = true ∧
    answers (exec (.feed (txpwr ++ txpwr)) State.reset) (fun t => t.events.length == 2) = true := by decide

theorem witness_SplitFrameIsEmittedOnce :
    State.reset.quiescent ∧ isFrame State.reset.cfg.maxLen txpwr = true ∧ 3 < txpwr.length ∧ 8 ≤ txpwr.length ∧
    State.reset.cfg.allowsChunk txpwr.length = true := by decide

/-- Garbage that ends in half a header. -/
theorem witness_FrameAfterGarbageIsFound :
    State.reset.quiescent ∧ noHeaderPair [0x00, 0x11, 0xC8] = true ∧ isFrame State.reset.cfg.maxLen txpwr = true ∧
    [[0x00, 0x11, 0xC8, 0xC8], txpwr.drop 1].flatten = [0x00, 0x11, 0xC8] ++ txpwr ∧
    ∀ c ∈ [[0x00, 0x11, 0xC8, 0xC8], txpwr.drop 1], State.reset.cfg.allowsChunk c.length = true := by decide

/-- V14: the second chunk. -/
theorem witness_IncompleteFrameHoldsEverythingBack :
    (holding ([0xC8, 0x8C, 0x00, 0x10] ++ txpwr)).quiescent ∧
    (holding ([0xC8, 0x8C, 0x00, 0x10] ++ txpwr)).cfg.allowsChunk ([0, 0, 0] : List Byte).length = true ∧
    incompleteFrame 65535 (([0xC8, 0x8C, 0x00, 0x10] ++ txpwr) ++ [0, 0, 0]) := by decide

/-- V6. -/
theorem witness_StrayHeaderBeforeAFrameStalls :
    State.reset.cfg = Config.standard ∧ State.reset.quiescent ∧ State.reset.buf = [] ∧ isFrame 65535 txpwr = true ∧
    txpwr.length + 2 < 51340 := by decide

/-- One state for each clause: a scan, its end, rest; each kind of request taken; a request that still waits. -/
theorem witness_StepRunsTheFetchedInstruction :
    ((scanning txpwr 0).inbox = [] ∧ (scanning txpwr 0).phase = .scanning) ∧
    ({ scanning txpwr 0 with phase := .stopped }.inbox = [] ∧ { scanning txpwr 0 with phase := .stopped }.phase = .stopped) ∧
    (State.reset.inbox = [] ∧ State.reset.phase = .idle) ∧
    (∀ op ∈ [HostOp.command 6, .feed txpwr, .reset, .resetWithFeed txpwr, .feedStepwise txpwr],
      { State.reset with inbox := [⟨3, op⟩] }.inbox = { after := 3, op := op } :: []) ∧
    State.reset.cfg.allowsChunk txpwr.length = true ∧
    { scanning txpwr 0 with inbox := [⟨0, .command 6⟩] }.inbox = { after := 0, op := .command 6 } :: [] ∧
    { scanning txpwr 0 with inbox := [⟨1, .reset⟩] }.inbox = { after := 0 + 1, op := .reset } :: [] := by decide

theorem witness_StepwiseFeedReachesTheAtomicFeed :
    (holding [0xC8]).phase = .idle ∧ (holding [0xC8]).cfg.allowsChunk txpwr.length = true ∧ (holding [0xC8]).inbox = [] ∧
    (holding [0xC8]).fill + txpwr.length + 3 ≤ 12 := by decide

/-- A state of each phase. -/
theorem witness_StepKeepsTheInvariant :
    (holding (txpwr.take 7)).inv ∧ (scanning txpwr 0).inv ∧ (stopped txpwr 8).inv ∧
    answers (step (scanning txpwr 0)) (fun _ => true) = true ∧
    answers (step (stopped txpwr 8)) (fun _ => true) = true ∧
    answers (step { holding (txpwr.take 7) with inbox := [⟨0, .feed [0x0A]⟩] }) (fun _ => true) = true :=
  ⟨by decide, by decide, by decide, by decide, by decide, by decide⟩

/-- A step that emits. -/
theorem witness_OnlyProperEventsAreEmitted :
    answers (step (scanning txpwr 0)) (fun t => t.events.drop 0 == [.validFrame txpwr]) = true := by decide

theorem witness_OutputsAreOnlyAppendedTo :
    answers (step { scanning txpwr 8 with events := [.resync 2], inbox := [⟨0, .reset⟩] })
      (fun t => t.events == [.resync 2]) = true := by decide

theorem witness_OperationsKeepToTheirPart :
    answers (exec (.feed txpwr) State.reset) (fun _ => true) = true ∧
    exec .encTxpwr (holding txpwr) = .next { holding txpwr with encOut := [txpwr] } :=
  ⟨by decide, rfl⟩

/-- Each of the two refusals happens. -/
theorem witness_OnlyTheHostsContractIsRefused :
    refuses (step { scanning txpwr 0 with inbox := [⟨0, .feed [1]⟩] }) .overlappingFeed = true ∧
    refuses (step { built 65535 (some 2) State.reset with inbox := [⟨0, .feed [1, 2, 3]⟩] }) .chunkTooLong = true := by
  decide

end Sys2Proof.Tests
end

section
/-! SUPPORT. Proofs of family 00: what the guards of `FEED` and of the scan steps answer, and the refinement of the
atomic `FEED` by the stepwise one: a run of the machine with nothing presented follows the scan loop of R117. -/

namespace Sys2Proof.Machine

/-! ## The guard of the scan steps -/

/-- The two refusals of a scan step and their conditions (assumption 9). -/
theorem scanGuard_refused {k : ScanStep} {s t : State} {r : Refusal} :
    scanGuard k s t = .refused r ↔
      (r = .noScanInProgress ∧ s.phase ≠ .scanning) ∨
      (r = .stepNotSelected ∧ s.phase = .scanning ∧ s.selected ≠ k) := by
  unfold scanGuard
  split_ifs with hp hk <;> simp [*, eq_comm (b := r)]

/-- Settles O18: the two refusals of the guard that every scan step runs under. -/
theorem unselectedScanStepIsRefused : Obligations.UnselectedScanStepIsRefused := by
  intro k s
  rw [exec_scanStep]
  exact ⟨fun hp => scanGuard_refused.2 (.inl ⟨rfl, hp⟩), fun hp hk => scanGuard_refused.2 (.inr ⟨rfl, hp, hk⟩)⟩

/-! ## The machine's own steps, with nothing presented -/

/-- `FEED` within its contract (R132) answers with the whole of R130. -/
theorem exec_feed {c : List Byte} {s : State} (hp : s.phase = .idle) (hc : s.cfg.allowsChunk c.length = true) :
    exec (.feed c) s = .next (feedResult c s) :=
  feedGuard_next.2 ⟨hp, hc, rfl⟩

/-- With nothing presented, a step is the decoder's own move. -/
theorem step_of_inbox_nil {s : State} (hi : s.inbox = []) : step s = perform (ownAction s) s := by
  simp [step, fetch, hi]

/-- R180: the quiescent decoder rests. -/
theorem step_idle {s : State} (hi : s.inbox = []) (hp : s.phase = .idle) : step s = .next s := by
  simp [step_of_inbox_nil hi, ownAction, hp, perform]

/-- During a scan the machine takes the selected step. -/
theorem step_scanning {s : State} (hi : s.inbox = []) (hp : s.phase = .scanning) :
    step s = .next (scanEffect s.selected s) := by
  rw [step_of_inbox_nil hi, ← exec_selected hp]
  simp only [ownAction, hp]
  rfl

/-- After the scan the machine ends the `FEED` (R48). -/
theorem step_stopped {s : State} (hi : s.inbox = []) (hp : s.phase = .stopped) : step s = .next s.finishFeed := by
  simp [step_of_inbox_nil hi, ownAction, hp, perform]

/-- A stepwise `FEED` presented alone to the quiescent decoder begins, at whatever moment it is set for. -/
theorem step_feedStepwise {s : State} {c : List Byte} (a : Nat) (hp : s.phase = .idle)
    (hc : s.cfg.allowsChunk c.length = true) (hi : s.inbox = []) :
    step { s with inbox := [{ after := a, op := .feedStepwise c }] } = .next (s.startFeed c) := by
  have hs : ({ s with inbox := [] } : State) = s := by rw [← hi]
  have hf : fetch { s with inbox := [{ after := a, op := .feedStepwise c }] } = (.beginFeed c, s) :=
    (if_pos (.inl hp)).trans (congrArg (Prod.mk _) hs)
  rw [step, hf]
  exact beginFeed_next.2 ⟨hp, hc, rfl⟩

/-! ## Runs with nothing presented -/

theorem run_idle {s : State} (hi : s.inbox = []) (hp : s.phase = .idle) : ∀ n, core.run n s = .next s
  | 0 => rfl
  | n + 1 => by rw [run_succ n s s (step_idle hi hp), run_idle hi hp n]

theorem run_stopped {s : State} (hi : s.inbox = []) (hp : s.phase = .stopped) (n : Nat) :
    core.run (n + 1) s = .next s.finishFeed := by
  rw [run_succ n s _ (step_stopped hi hp)]
  exact run_idle (s := s.finishFeed) hi rfl n

/-- A run follows the scan loop: where `k` rounds of the loop stop the scan, `k + 1` steps of the machine and any more
end the `FEED`. -/
theorem run_scanLoop : ∀ (k n : Nat) (s : State), s.inbox = [] → (scanLoop k s).phase = .stopped → k ≤ n →
    core.run (n + 1) s = .next (scanLoop k s).finishFeed
  | 0, n, s, hi, hp, _ => run_stopped hi hp n
  | k + 1, 0, _, _, _, hn => absurd hn (Nat.not_succ_le_zero k)
  | k + 1, n + 1, s, hi, hp, hn => by
    unfold scanLoop at hp ⊢
    split_ifs at hp ⊢ with hs
    · obtain ⟨-, -, -, hib⟩ := scanEffect_frame s.selected s
      rw [run_succ (n + 1) s _ (step_scanning hi hs)]
      exact run_scanLoop k n _ (hib.trans hi) hp (Nat.le_of_succ_le_succ hn)
    · exact run_stopped hi hp (n + 1)

/-- The scan of a `FEED` has stopped after `FILL + |c| + 1` rounds (R118). -/
theorem scanLoop_startFeed_stopped (c : List Byte) (s : State) :
    (scanLoop (s.fill + c.length + 1) (s.startFeed c)).phase = .stopped := by
  rw [scanLoop_eq _ (s.startFeed c) rfl (Nat.zero_le _) (by simp [State.window])]

/-- Settles O47: one step begins the `FEED`, the run follows the scan loop to its end, one step compacts, and then the
machine rests. -/
theorem stepwiseFeedReachesTheAtomicFeed : Obligations.StepwiseFeedReachesTheAtomicFeed := by
  intro s c a n hp hc hi hn
  obtain ⟨m, rfl⟩ : ∃ m, n = m + 2 := ⟨n - 2, by omega⟩
  rw [exec_feed hp hc]
  refine (run_succ (m + 1) _ _ (step_feedStepwise a hp hc hi)).trans ?_
  exact run_scanLoop (s.fill + c.length + 1) m (s.startFeed c) hi (scanLoop_startFeed_stopped c s) (by omega)

end Sys2Proof.Machine
end

section
/-! SUPPORT. Proofs of family 10: the state after reset and the invariant of the machine. A decoder is quiescent where
its cursor is at 0 and a scan would stop there at once; so whatever ends at such a stop (`FEED`, atomic or stepwise, and
`RESET`) has the invariant by one lemma, `inv_of_stops`. -/

namespace Sys2Proof.Machine

/-! ## The static parameters -/

theorem minLen_le_of_legal {c : Config} (h : c.legal = true) : MIN_LEN ≤ c.maxLen := by
  simp only [Config.legal, Bool.and_eq_true, decide_eq_true_eq] at h
  obtain ⟨⟨hmin, -⟩, -⟩ := h
  exact hmin

theorem allowsChunk_iff (c : Config) (n : Nat) : c.allowsChunk n = true ↔ ∀ m, c.maxChunk = some m → n ≤ m := by
  simp [Config.allowsChunk, Option.all_eq_true]

theorem withinCap_iff (s : State) :
    s.withinCap ↔ ∀ m, s.cfg.maxChunk = some m → s.fill ≤ s.cfg.maxLen - 1 + m := by
  simp [State.withinCap, Config.bufCap, Option.all_eq_true]

/-- The capacity holds a tail shorter than `MAX_LEN` and a chunk within `MAX_CHUNK` behind it (R10, R138). -/
theorem withinCap_of_tail_chunk {s : State} {n : Nat} (hn : s.cfg.allowsChunk n = true)
    (hf : s.fill ≤ s.cfg.maxLen - 1 + n) : s.withinCap :=
  (withinCap_iff s).2 fun m hm => hf.trans (Nat.add_le_add_left ((allowsChunk_iff _ _).1 hn m hm) _)

/-! ## The tails at which a scan stops -/

/-- A scan stops at exactly the tails of R27. -/
theorem decodeScan_stops_iff (m : Nat) (w : List Byte) :
    (decodeScan m w).stops = true ↔ w.length ≤ 5 ∨ incompleteFrame m w := by
  have hlong {P : Prop} (hl : SKELETON ≤ w.length) (hP : ¬ P) : ¬ (w.length ≤ 5 ∨ P) :=
    not_or.2 ⟨Nat.not_le.2 hl, hP⟩
  rcases decodeScan_cases m w with ⟨e, hl⟩ | ⟨e, hl, hh⟩ | ⟨e, hl, hh, hr⟩ | ⟨e, hl, hh, hr, hw⟩ |
    ⟨e, hl, hh, hr, hc, -⟩ | ⟨e, hl, hh, hr, hc, -⟩ <;> rw [e]
  · exact iff_of_true rfl (.inl (Nat.le_of_lt_succ hl))
  · exact iff_of_false Bool.false_ne_true (hlong hl fun ⟨_, hh', _⟩ => by simp [hh] at hh')
  · exact iff_of_false Bool.false_ne_true (hlong hl fun ⟨_, _, hmin, hmax, _⟩ => by
      simp [(lenInRange_iff _ _).2 ⟨hmin, hmax⟩] at hr)
  · obtain ⟨hmin, hmax⟩ := (lenInRange_iff _ _).1 hr
    exact iff_of_true rfl (.inr ⟨hl, hh, hmin, hmax, hw⟩)
  · exact iff_of_false Bool.false_ne_true (hlong hl fun ⟨_, _, _, _, hw⟩ => Nat.not_lt.2 hc hw)
  · exact iff_of_false Bool.false_ne_true (hlong hl fun ⟨_, _, _, _, hw⟩ => Nat.not_lt.2 hc hw)

/-- What a scan leaves is shorter than `MAX_LEN` (R138). -/
theorem length_le_of_stops {c : Config} {w : List Byte} (hl : c.legal = true)
    (hs : (decodeScan c.maxLen w).stops = true) : w.length ≤ c.maxLen - 1 := by
  have hmin : 6 ≤ c.maxLen := minLen_le_of_legal hl
  rcases (decodeScan_stops_iff _ _).1 hs with h5 | ⟨-, -, -, hmax, hw⟩ <;> omega

/-- R27 in the decoder's own terms: a scan would stop at once. -/
theorem quiescent_iff_stops (s : State) :
    s.quiescent ↔ s.phase = .idle ∧ s.cur = 0 ∧ (decodeScan s.cfg.maxLen s.buf).stops = true := by
  rw [decodeScan_stops_iff]

theorem fill_le_of_quiescent {s : State} (hl : s.cfg.legal = true) (hq : s.quiescent) :
    s.fill ≤ s.cfg.maxLen - 1 := by
  obtain ⟨-, -, hs⟩ := (quiescent_iff_stops s).1 hq
  exact length_le_of_stops hl hs

theorem quiescent_of_empty {s : State} (hp : s.phase = .idle) (hc : s.cur = 0) (hb : s.buf = []) : s.quiescent :=
  ⟨hp, hc, .inl (by rw [State.fill, hb]; exact Nat.zero_le 5)⟩

/-! ## What an operation can do -/

/-- Every operation of the opcode table is the encoder's, a scan step or the host's. -/
theorem instr_cases (i : Instr) :
    (∃ id : CmdId, i = id.instr) ∨ (∃ k : ScanStep, i = k.instr) ∨ (∃ c, i = .feed c) ∨ i = .reset := by
  cases i with
  | encScanc => exact .inl ⟨.scanContinuous, rfl⟩
  | encScan1 => exact .inl ⟨.scanSingle, rfl⟩
  | encStop => exact .inl ⟨.scanStop, rfl⟩
  | encHwver => exact .inl ⟨.getHardwareVersion, rfl⟩
  | encFwver => exact .inl ⟨.getFirmwareVersion, rfl⟩
  | encDevid => exact .inl ⟨.getDeviceId, rfl⟩
  | encTxpwr => exact .inl ⟨.getTransmitPower, rfl⟩
  | encAnt => exact .inl ⟨.getAntennaStatus, rfl⟩
  | scanShort => exact .inr (.inl ⟨.short, rfl⟩)
  | scanSkip1 => exact .inr (.inl ⟨.skip1, rfl⟩)
  | scanBadlen len => exact .inr (.inl ⟨.badlen len, rfl⟩)
  | scanWait len => exact .inr (.inl ⟨.wait len, rfl⟩)
  | scanEmit len => exact .inr (.inl ⟨.emit len, rfl⟩)
  | scanResync2 len => exact .inr (.inl ⟨.resync2 len, rfl⟩)
  | feed c => exact .inr (.inr (.inl ⟨c, rfl⟩))
  | reset => exact .inr (.inr (.inr rfl))

theorem exec_reset (s : State) : exec .reset s = .next s.clear := rfl

theorem exec_feed_next {c : List Byte} {s t : State} :
    exec (.feed c) s = .next t ↔ s.phase = .idle ∧ s.cfg.allowsChunk c.length = true ∧ t = feedResult c s :=
  feedGuard_next

/-- Everything an operation that answers can have done. -/
theorem exec_cases {i : Instr} {s t : State} (h : exec i s = .next t) :
    (∃ id : CmdId, i = id.instr ∧ t = s.answer (cmdBytes id)) ∨
    (i = s.selected.instr ∧ s.phase = .scanning ∧ t = scanEffect s.selected s) ∨
    (∃ c, i = .feed c ∧ s.phase = .idle ∧ s.cfg.allowsChunk c.length = true ∧ t = feedResult c s) ∨
    (i = .reset ∧ t = s.clear) := by
  rcases instr_cases i with ⟨id, rfl⟩ | ⟨k, rfl⟩ | ⟨c, rfl⟩ | rfl
  · rw [exec_command] at h
    exact .inl ⟨id, rfl, (Host.Outcome.next.inj h).symm⟩
  · obtain ⟨hp, rfl, ht⟩ := exec_scanStep_next.1 h
    exact .inr (.inl ⟨rfl, hp, ht⟩)
  · exact .inr (.inr (.inl ⟨c, rfl, exec_feed_next.1 h⟩))
  · rw [exec_reset] at h
    exact .inr (.inr (.inr ⟨rfl, (Host.Outcome.next.inj h).symm⟩))

/-! ## The invariant -/

/-- Between `FEED`s, the invariant is that a scan would stop at once. -/
theorem inv_of_stops {s : State} (hl : s.cfg.legal = true) (hp : s.phase = .idle) (hc : s.cur = 0)
    (hs : (decodeScan s.cfg.maxLen s.buf).stops = true) : s.inv := by
  have hf : s.fill ≤ s.cfg.maxLen - 1 := length_le_of_stops hl hs
  have hcap : s.withinCap := (withinCap_iff s).2 fun m _ => Nat.le_add_right_of_le hf
  exact ⟨hl, hcap, fun _ => (quiescent_iff_stops s).2 ⟨hp, hc, hs⟩, hc ▸ Nat.zero_le _, by simp [hp]⟩

/-- During a scan, the invariant is the capacity of the buffer and the cursor within it. -/
theorem inv_of_scanning {s : State} (hl : s.cfg.legal = true) (hcap : s.withinCap) (hp : s.phase = .scanning)
    (hc : s.cur ≤ s.fill) : s.inv :=
  ⟨hl, hcap, by simp [hp], hc, by simp [hp]⟩

theorem inv_clear {s : State} (hl : s.cfg.legal = true) : s.clear.inv :=
  inv_of_stops hl rfl rfl (by rw [State.clear_buf, decodeScan_short (by decide)]; rfl)

theorem inv_feedResult {s : State} (c : List Byte) (hl : s.cfg.legal = true) : (feedResult c s).inv := by
  rw [feedResult_eq]
  exact inv_of_stops hl rfl rfl (streamOf_stops _ _)

theorem inv_startFeed {s : State} {c : List Byte} (hi : s.inv) (hp : s.phase = .idle)
    (ha : s.cfg.allowsChunk c.length = true) : (s.startFeed c).inv := by
  obtain ⟨hl, -, hq, -, -⟩ := hi
  have hf : (s.startFeed c).fill ≤ s.cfg.maxLen - 1 + c.length := by
    rw [State.fill, State.startFeed_buf, List.length_append]
    exact Nat.add_le_add_right (fill_le_of_quiescent hl (hq hp)) _
  exact inv_of_scanning hl (withinCap_of_tail_chunk ha hf) rfl (Nat.zero_le _)

/-- The compaction of R48 leaves the window at which the scan stopped. -/
theorem inv_finishFeed {s : State} (hi : s.inv) (hp : s.phase = .stopped) : s.finishFeed.inv := by
  obtain ⟨hl, -, -, -, hs⟩ := hi
  exact inv_of_stops hl rfl rfl (hs hp)

/-- A step that stops the scan leaves its window; one that goes on moves the cursor past a front of the window. -/
theorem inv_scanEffect {s : State} (hi : s.inv) (hp : s.phase = .scanning) : (scanEffect s.selected s).inv := by
  obtain ⟨hl, hcap, -, hc, -⟩ := hi
  cases hs : stepPiece s.window s.selected with
  | none =>
    have hstop := (stepPiece_none_iff _ _).1 hs
    rw [scanEffect_stops hstop]
    exact ⟨hl, hcap, by simp, hc, fun _ => hstop⟩
  | some p =>
    obtain ⟨-, -, hlen⟩ := stepPiece_front hs
    rw [window_length, State.avail] at hlen
    rw [scanEffect_piece hs]
    exact inv_of_scanning hl hcap hp (show s.cur + p.bytes.length ≤ s.fill by omega)

theorem inv_exec {i : Instr} {s t : State} (hi : s.inv) (h : exec i s = .next t) : t.inv := by
  have ⟨hl, _⟩ := hi
  rcases exec_cases h with ⟨id, -, rfl⟩ | ⟨-, hp, rfl⟩ | ⟨c, -, -, -, rfl⟩ | ⟨-, rfl⟩
  · exact hi
  · exact inv_scanEffect hi hp
  · exact inv_feedResult c hl
  · exact inv_clear hl

/-- Settles O48: an operation, the beginning or the end of a `FEED`, or rest; what is taken out of the inbox is no part
of the invariant. -/
theorem stepKeepsTheInvariant : Obligations.StepKeepsTheInvariant := by
  intro s s' hi h
  obtain ⟨ib, ⟨i, hx⟩ | ⟨c, hp, ha, rfl⟩ | ⟨hp, rfl⟩ | rfl⟩ := step_cases h
  · exact inv_exec (s := { s with inbox := ib }) hi hx
  · exact inv_startFeed (s := { s with inbox := ib }) hi hp ha
  · exact inv_finishFeed (s := { s with inbox := ib }) hi hp
  · exact hi

/-! ## Reset -/

/-- Settles O33: power-on and `RESET` both leave the empty decoder (R30). -/
theorem powerOnIsTheResetState : Obligations.PowerOnIsTheResetState := by
  refine ⟨rfl, rfl, quiescent_of_empty rfl rfl rfl, fun s t h => ?_⟩
  rw [exec_reset] at h
  obtain rfl : s.clear = t := Host.Outcome.next.inj h
  exact ⟨rfl, rfl, quiescent_of_empty rfl rfl rfl, rfl, rfl, rfl⟩

/-- Settles O49: the default build is legal, and power-on is an emptied decoder (R30). -/
theorem resetHasTheInvariant : Obligations.ResetHasTheInvariant :=
  inv_clear (s := State.reset) (by decide)

end Sys2Proof.Machine
end

section
/-! SUPPORT. Proofs of family 20: the reads of `BUF`, which have a value exactly within `FILL`, and the independence of
encoder and decoder: what the encoder has returned is a field that every decoder operation passes on unread. -/

namespace Sys2Proof

/-- A read has a value exactly where all its bytes are there (R40). -/
theorem readBE_isSome_iff (bs : List Byte) (a n : Nat) : (readBE bs a n).isSome = true ↔ a + n ≤ bs.length := by
  unfold readBE
  split_ifs with h <;> simp [h]

end Sys2Proof

namespace Sys2Proof.Machine

/-! ## Reads of the buffer -/

theorem memRead_isSome_iff (s : State) (a n : Nat) : (s.memRead a n).isSome = true ↔ a + n ≤ s.fill :=
  readBE_isSome_iff s.buf a n

theorem memRead_eq_none_iff (s : State) (a n : Nat) : s.memRead a n = none ↔ s.fill < a + n := by
  rw [← Nat.not_le, ← memRead_isSome_iff, Option.not_isSome_iff_eq_none]

theorem frameAt_length {s : State} {L : Nat} (h : s.cur + L ≤ s.fill) : (s.frameAt L).length = L := by
  rw [State.frameAt, List.length_take, window_length, State.avail]
  omega

theorem frameAt_getElem? (s : State) {L j : Nat} (h : j < L) : (s.frameAt L)[j]? = s.readByte (s.cur + j) := by
  rw [State.frameAt, List.getElem?_take_of_lt h, window_getElem?]

/-- Settles O7: the byte-order reads of one and of two bytes, the bound of a read, and the frame copy byte by byte. -/
theorem memReadIsBigEndian : Obligations.MemReadIsBigEndian := by
  intro s a
  exact ⟨fun b hb => (memRead_one_iff s a b).2 hb, fun b0 b1 h0 h1 => readBE_two h0 h1, memRead_eq_none_iff s a,
    fun L hL => ⟨frameAt_length hL, fun j hj => frameAt_getElem? s hj⟩⟩

/-- Settles O8: every read of a scan step ends within `FILL`; a length of at least `MIN_LEN` puts the footer behind the
length field. -/
theorem scanReadsAreInBounds : Obligations.ScanReadsAreInBounds := by
  intro s hw
  have hfill : s.cur + 6 ≤ s.fill := by
    rw [State.avail] at hw
    omega
  simp only [memRead_isSome_iff]
  refine ⟨by omega, by omega, by omega, fun len _ ⟨hmin, _⟩ hc => ?_⟩
  have hlen : 6 ≤ len.toNat := hmin
  exact ⟨by omega, by omega, by omega⟩

/-! ## The encoder and the decoder -/

/-- A scan step passes on what the encoder has returned. -/
theorem scanEffect_answer (k : ScanStep) (bs : List Byte) (s : State) :
    scanEffect k (s.answer bs) = (scanEffect k s).answer bs := by
  cases k <;> rfl

/-- A `FEED` passes on what the encoder has returned: its scan reads the buffer, the chunk and `MAX_LEN` alone. -/
theorem feedResult_answer (c bs : List Byte) (s : State) :
    feedResult c (s.answer bs) = (feedResult c s).answer bs := by
  rw [feedResult_eq, feedResult_eq]
  rfl

/-- A decoder operation that answers does so too after the encoder has returned a byte string, with the same result but
for that string. -/
theorem exec_decoder_answer {i : Instr} {s t : State} (bs : List Byte)
    (hi : (∃ c, i = .feed c) ∨ i = .reset ∨ ∃ k : ScanStep, i = k.instr) (h : exec i s = .next t) :
    exec i (s.answer bs) = .next (t.answer bs) := by
  rcases hi with ⟨c, rfl⟩ | rfl | ⟨k, rfl⟩
  · obtain ⟨hp, hc, rfl⟩ := exec_feed_next.1 h
    exact exec_feed_next.2 ⟨hp, hc, (feedResult_answer c bs s).symm⟩
  · rw [exec_reset] at h
    obtain rfl : s.clear = t := Host.Outcome.next.inj h
    exact exec_reset _
  · obtain ⟨hp, hk, rfl⟩ := exec_scanStep_next.1 h
    exact exec_scanStep_next.2 ⟨hp, hk, (scanEffect_answer k bs s).symm⟩

/-- Settles O27: an `ENC` operation returns its entry in every state, and a decoder operation passes that on. -/
theorem encoderAndDecoderAreIndependent : Obligations.EncoderAndDecoderAreIndependent := by
  intro id i s t hi h
  exact ⟨s.answer (cmdBytes id), t.answer (cmdBytes id), exec_command id s, exec_decoder_answer _ hi h,
    exec_command id t⟩

end Sys2Proof.Machine
end

section
/-! SUPPORT. Proofs of family 30: the scan window, the frame and the codes. The selection of R65 is read in two ways:
along a window written out from the header and a length (the encoder's windows), and at any window, of which it reads
the header, the length and the footer only. A valid frame (R64) is what both find at `SCAN.EMIT`. -/

namespace Sys2Proof

/-! ## The codes of the encoder -/

theorem decodeCommand_code (id : CmdId) : decodeCommand id.code = id := by
  cases id <;> rfl

theorem code_decodeCommand : ∀ bits : BitVec 3, (decodeCommand bits).code = bits := by
  decide

theorem decode_encode_command (m : Nat) (id : CmdId) : decode m (encode id.instr) = id.instr := by
  cases id <;> rfl

/-- Settles O1: `decodeCommand` and `CmdId.code` are inverse, and the table of R72 row by row. -/
theorem commandCodesAreTheEightIdentifiers : Obligations.CommandCodesAreTheEightIdentifiers :=
  ⟨code_decodeCommand, decodeCommand_code, rfl, rfl, rfl, rfl, rfl, rfl, rfl, rfl,
    fun _ => ⟨rfl, rfl, rfl, rfl, rfl, rfl, rfl, rfl⟩⟩

/-- Settles O2: the words are closed, and the decoder evaluates. -/
theorem writtenWordsDecode : Obligations.WrittenWordsDecode := by
  unfold Obligations.WrittenWordsDecode
  decide

/-! ## Windows written out from the header and a length -/

theorem hasHeader_header_lenBytes (len : Len) (r : List Byte) : hasHeader (HEADER ++ lenBytes len ++ r) = true := by
  rw [List.append_assoc, hasHeader_header]

theorem length_header_lenBytes (len : Len) (r : List Byte) :
    (HEADER ++ lenBytes len ++ r).length = r.length + 4 := by
  rw [List.length_append, List.length_append, lenBytes_length, Nat.add_comm]
  rfl

/-- Rows 3 to 6 of R65: what is left to decide where the header and a length stand. -/
theorem decodeScan_header (m : Nat) (len : Len) {r : List Byte} (h : 2 ≤ r.length) :
    decodeScan m (HEADER ++ lenBytes len ++ r) =
      if lenInRange m len.toNat = false then .badlen len
      else if r.length + 4 < len.toNat then .wait len
      else if hasFooter (HEADER ++ lenBytes len ++ r) len.toNat = true then .emit len
      else .resync2 len := by
  have h6 : ¬ r.length + 4 < SKELETON := Nat.not_lt.2 (Nat.add_le_add_right h 4)
  rw [decodeScan, declaredLen_header, length_header_lenBytes, if_neg h6,
    if_neg (Bool.ne_false_iff.2 (hasHeader_header_lenBytes len r))]

/-- A window of the declared length is decided by its last two bytes (rows 5 and 6 of R65). -/
theorem decodeScan_header_end {m : Nat} {len : Len} {body : List Byte} (a b : Byte)
    (hr : lenInRange m len.toNat = true) (hl : len.toNat = body.length + SKELETON) :
    decodeScan m (HEADER ++ lenBytes len ++ body ++ [a, b]) =
      if a = 0x0D ∧ b = 0x0A then .emit len else .resync2 len := by
  have hf := hasFooter_end (w := HEADER ++ lenBytes len ++ body) a b
    (hl.trans (by rw [length_header_lenBytes]; rfl))
  rw [List.append_assoc] at hf ⊢
  have hc : ¬ (body ++ [a, b]).length + 4 < len.toNat := by
    rw [hl, List.length_append]
    exact Nat.lt_irrefl _
  rw [decodeScan_header m len (by simp), if_neg (Bool.ne_false_iff.2 hr), if_neg hc, hf]
  simp only [decide_eq_true_eq]

/-- The decoder selects at the encoder's window the step that it was written for. -/
theorem decode_encode_scanStep {c : Config} {k : ScanStep} (h : k.instr.wellFormed c = true) :
    decode c.maxLen (encode k.instr) = k.instr := by
  cases k with
  | short => rfl
  | skip1 => rfl
  | badlen len =>
    have hr : lenInRange c.maxLen len.toNat = false := by simpa [ScanStep.instr, Instr.wellFormed] using h
    exact congrArg ScanStep.instr ((decodeScan_header _ len le_rfl).trans (if_pos hr))
  | wait len =>
    simp only [ScanStep.instr, Instr.wellFormed, Bool.and_eq_true, decide_eq_true_eq] at h
    obtain ⟨hr, h6⟩ := h
    exact congrArg ScanStep.instr
      ((decodeScan_header _ len le_rfl).trans ((if_neg (Bool.ne_false_iff.2 hr)).trans (if_pos h6)))
  | emit len =>
    have hmin := ((lenInRange_iff _ _).1 h).1
    exact congrArg ScanStep.instr (decodeScan_header_end 0x0D 0x0A h
      (by rw [List.length_replicate]; exact (Nat.sub_add_cancel hmin).symm))
  | resync2 len =>
    have hmin := ((lenInRange_iff _ _).1 h).1
    exact congrArg ScanStep.instr (decodeScan_header_end 0 0 h
      (by rw [List.length_replicate]; exact (Nat.sub_add_cancel hmin).symm))

/-- Settles O3: a command code, a scan window, or a request of the host. -/
theorem decodeReadsBackEveryInstruction : Obligations.DecodeReadsBackEveryInstruction := by
  intro c i _ hw
  rcases Machine.instr_cases i with ⟨id, rfl⟩ | ⟨k, rfl⟩ | ⟨chunk, rfl⟩ | rfl
  · exact decode_encode_command _ id
  · exact decode_encode_scanStep hw
  · rfl
  · rfl

/-! ## What the selection reads of a window -/

theorem take_two_eq_header_iff (w : List Byte) : w.take 2 = HEADER ↔ hasHeader w = true := by
  constructor
  · intro h
    rw [← List.take_append_drop 2 w, h, hasHeader_header]
  · intro h
    rw [Machine.header_split h]
    rfl

theorem take_four_eq {w : List Byte} (h : 4 ≤ w.length) (hh : hasHeader w = true) :
    w.take 4 = HEADER ++ lenBytes (declaredLen w) := by
  rw [← take_lenBytes h, ← (take_two_eq_header_iff w).2 hh]
  exact List.take_add (i := 2) (j := 2)

/-- Rows 3 to 6 carry the length that the window declares, behind the header (R65). -/
theorem declaredLen_of_decodeScan {m : Nat} {w : List Byte} {len : Len}
    (h : decodeScan m w = .badlen len ∨ decodeScan m w = .wait len ∨ decodeScan m w = .emit len ∨
      decodeScan m w = .resync2 len) :
    SKELETON ≤ w.length ∧ hasHeader w = true ∧ declaredLen w = len := by
  rcases decodeScan_cases m w with ⟨e, -⟩ | ⟨e, -⟩ | ⟨e, hl, hh, -⟩ | ⟨e, hl, hh, -⟩ | ⟨e, hl, hh, -⟩ |
    ⟨e, hl, hh, -⟩ <;> simp only [e, reduceCtorEq, false_or, or_false, ScanStep.badlen.injEq, ScanStep.wait.injEq,
      ScanStep.emit.injEq, ScanStep.resync2.injEq] at h
  all_goals exact ⟨hl, hh, h⟩

theorem of_decodeScan_skip1 {m : Nat} {w : List Byte} (h : decodeScan m w = .skip1) :
    SKELETON ≤ w.length ∧ hasHeader w = false := by
  rcases decodeScan_cases m w with ⟨e, -⟩ | ⟨-, hl, hh⟩ | ⟨e, -⟩ | ⟨e, -⟩ | ⟨e, -⟩ | ⟨e, -⟩
  case inr.inl => exact ⟨hl, hh⟩
  all_goals rw [e] at h; cases h

theorem of_decodeScan_badlen {m : Nat} {w : List Byte} {len : Len} (h : decodeScan m w = .badlen len) :
    lenInRange m len.toNat = false := by
  rcases decodeScan_cases m w with ⟨e, -⟩ | ⟨e, -⟩ | ⟨e, -, -, hr⟩ | ⟨e, -⟩ | ⟨e, -⟩ | ⟨e, -⟩ <;>
    rw [e] at h <;> cases h
  exact hr

/-- Settles O4: the first four bytes are the header and the declared length; `SKIP1` is the failed header test. -/
theorem windowWordFixesTheStep : Obligations.WindowWordFixesTheStep := by
  intro m w
  constructor
  · intro len h
    obtain ⟨hl, hh, rfl⟩ := declaredLen_of_decodeScan h
    exact take_four_eq (Nat.le_trans (by decide) hl) hh
  · intro h
    obtain ⟨hl, hh⟩ := of_decodeScan_skip1 h
    exact ⟨hl, fun e => by simp [(take_two_eq_header_iff w).1 e] at hh⟩

/-- Settles O24: a length above `MAX_LEN` is out of range; no 16-bit length is above 65535. -/
theorem defaultMaxLenRejectsNoLongFrame : Obligations.DefaultMaxLenRejectsNoLongFrame := by
  constructor
  · intro m w hl hh hm
    refine decodeScan_badlen hl hh (Bool.eq_false_iff.2 fun hr => ?_)
    exact Nat.not_le.2 hm ((lenInRange_iff _ _).1 hr).2
  · intro w len h
    have hr := of_decodeScan_badlen h
    by_contra hmin
    rw [(lenInRange_iff _ _).2 ⟨Nat.not_lt.1 hmin, Nat.le_of_lt_succ len.isLt⟩] at hr
    cases hr

/-- A read sees its own bytes only. -/
theorem readBE_congr {w w' : List Byte} {a n : Nat} (hl : w.length = w'.length)
    (h : ∀ j, a ≤ j → j < a + n → w[j]? = w'[j]?) : readBE w a n = readBE w' a n := by
  have hb : (w.drop a).take n = (w'.drop a).take n := by
    refine List.ext_getElem? fun j => ?_
    simp only [List.getElem?_take, List.getElem?_drop]
    split_ifs with hj
    · exact h (a + j) (Nat.le_add_right a j) (Nat.add_lt_add_left hj a)
    · rfl
  rw [readBE, readBE, hl, hb]

/-- Settles O23: header, length and footer are reads at offsets 0 to 3 and at the two that end the declared length; the
footer is read of an accepted length only. -/
theorem selectionReadsHeaderLengthAndFooterOnly : Obligations.SelectionReadsHeaderLengthAndFooterOnly := by
  intro m w w' hl h
  have hhdr : hasHeader w = hasHeader w' := by
    rw [hasHeader, hasHeader, readBE_congr hl fun j _ hj => h j (.inl (by omega)),
      readBE_congr hl fun j _ hj => h j (.inl (by omega))]
  have hlen : declaredLen w = declaredLen w' := by
    rw [declaredLen, declaredLen, readBE_congr hl fun j _ hj => h j (.inl (by omega))]
  have hftr (hr : lenInRange m (declaredLen w).toNat = true) :
      hasFooter w (declaredLen w).toNat = hasFooter w' (declaredLen w).toNat := by
    have hmin : 6 ≤ (declaredLen w).toNat := ((lenInRange_iff _ _).1 hr).1
    rw [hasFooter, hasFooter, readBE_congr hl fun j _ hj => h j (.inr (by omega)),
      readBE_congr hl fun j _ hj => h j (.inr (by omega))]
  rw [decodeScan, decodeScan, ← hl, ← hhdr, ← hlen]
  cases hr : lenInRange m (declaredLen w).toNat with
  | false => simp only [if_true]
  | true => rw [hftr hr]

end Sys2Proof

namespace Sys2Proof.Machine

/-! ## The rows of R65 over offsets of `BUF` -/

/-- The rest of the buffer is too short for a length exactly where the length reaches past `FILL`. -/
theorem window_length_lt_iff {s : State} (h : s.cur ≤ s.fill) (n : Nat) :
    s.window.length < n ↔ s.fill < s.cur + n := by
  rw [window_length, State.avail]
  omega

theorem le_window_length_iff {s : State} (h : s.cur ≤ s.fill) (n : Nat) :
    n ≤ s.window.length ↔ s.cur + n ≤ s.fill := by
  rw [← Nat.not_lt, window_length_lt_iff h, Nat.not_lt]

/-- The footer test of an accepted length. -/
theorem hasFooter_window_of_inRange {s : State} {len : Len} (h : s.cur ≤ s.fill) (hr : s.inRange len) :
    hasFooter s.window len.toNat = true ↔ s.ftr len :=
  hasFooter_window s h len (Nat.le_trans (by decide) hr.1)

theorem selected_of_rowApplies {s : State} {k : ScanStep} (h : s.cur ≤ s.fill) (hk : s.rowApplies k) :
    s.selected = k := by
  have hlen := window_length s
  cases k with
  | short => exact decodeScan_short (hlen ▸ hk)
  | skip1 =>
    obtain ⟨h6, hh⟩ := hk
    exact decodeScan_skip1 (hlen ▸ h6) (Bool.eq_false_iff.2 fun hw => hh ((hasHeader_window s h).1 hw))
  | badlen len =>
    obtain ⟨h6, hh, hl, hr⟩ := hk
    obtain rfl := (declaredLen_window s h h6 len).1 hl
    exact decodeScan_badlen (hlen ▸ h6) ((hasHeader_window s h).2 hh)
      (Bool.eq_false_iff.2 fun hw => hr ((lenInRange_iff _ _).1 hw))
  | wait len =>
    obtain ⟨h6, hh, hl, hr, hc⟩ := hk
    obtain rfl := (declaredLen_window s h h6 len).1 hl
    exact decodeScan_wait (hlen ▸ h6) ((hasHeader_window s h).2 hh) ((lenInRange_iff _ _).2 hr)
      ((window_length_lt_iff h _).2 hc)
  | emit len =>
    obtain ⟨h6, hh, hl, hr, hc, hf⟩ := hk
    obtain rfl := (declaredLen_window s h h6 len).1 hl
    exact decodeScan_emit (hlen ▸ h6) ((hasHeader_window s h).2 hh) ((lenInRange_iff _ _).2 hr)
      ((le_window_length_iff h _).2 hc)
      ((hasFooter_window_of_inRange h hr).2 hf)
  | resync2 len =>
    obtain ⟨h6, hh, hl, hr, hc, hf⟩ := hk
    obtain rfl := (declaredLen_window s h h6 len).1 hl
    exact decodeScan_resync2 (hlen ▸ h6) ((hasHeader_window s h).2 hh) ((lenInRange_iff _ _).2 hr)
      ((le_window_length_iff h _).2 hc)
      (Bool.eq_false_iff.2 fun hw => hf ((hasFooter_window_of_inRange h hr).1 hw))

theorem rowApplies_selected {s : State} (h : s.cur ≤ s.fill) : s.rowApplies s.selected := by
  have hlen := window_length s
  have hhdr := hasHeader_window s h
  have hL (h6 : SKELETON ≤ s.window.length) : s.lenIs (declaredLen s.window) :=
    (declaredLen_window s h (hlen ▸ h6) _).2 rfl
  rcases decodeScan_cases s.cfg.maxLen s.window with ⟨e, hl⟩ | ⟨e, hl, hh⟩ | ⟨e, hl, hh, hr⟩ | ⟨e, hl, hh, hr, hc⟩ |
    ⟨e, hl, hh, hr, hc, hf⟩ | ⟨e, hl, hh, hr, hc, hf⟩ <;> rw [State.selected, e]
  · exact hlen.symm.trans_lt hl
  · exact ⟨hlen ▸ hl, fun hs => Bool.eq_false_iff.1 hh (hhdr.2 hs)⟩
  · exact ⟨hlen ▸ hl, hhdr.1 hh, hL hl, fun hs => Bool.eq_false_iff.1 hr ((lenInRange_iff _ _).2 hs)⟩
  · exact ⟨hlen ▸ hl, hhdr.1 hh, hL hl, (lenInRange_iff _ _).1 hr, (window_length_lt_iff h _).1 hc⟩
  · have hr' := (lenInRange_iff _ _).1 hr
    exact ⟨hlen ▸ hl, hhdr.1 hh, hL hl, hr', (le_window_length_iff h _).1 hc, (hasFooter_window_of_inRange h hr').1 hf⟩
  · have hr' := (lenInRange_iff _ _).1 hr
    exact ⟨hlen ▸ hl, hhdr.1 hh, hL hl, hr', (le_window_length_iff h _).1 hc,
      fun hs => Bool.eq_false_iff.1 hf ((hasFooter_window_of_inRange h hr').2 hs)⟩

/-- Settles O9: row by row, the condition on the window is the condition on `BUF`. -/
theorem selectedStepIsTheRowThatApplies : Obligations.SelectedStepIsTheRowThatApplies := by
  intro s h k
  exact ⟨fun hk => hk ▸ rowApplies_selected h, selected_of_rowApplies h⟩

/-- Settles O10: the row that applies is the one of the selected step. -/
theorem exactlyOneRowApplies : Obligations.ExactlyOneRowApplies := by
  intro s h
  exact ⟨s.selected, rowApplies_selected h, fun _ hk => (selected_of_rowApplies h hk).symm⟩

/-! ## Valid frames -/

/-- A valid frame declares its own length. -/
theorem declaredLen_of_isFrame {m : Nat} {f : List Byte} (h : isFrame m f = true) :
    declaredLen f = BitVec.ofNat 16 f.length := by
  obtain ⟨-, -, -, hl, -⟩ := (isFrame_iff m f).1 h
  rw [← hl, BitVec.ofNat_toNat, BitVec.setWidth_eq]

theorem length_of_isFrame {m : Nat} {f : List Byte} (h : isFrame m f = true) :
    6 ≤ f.length ∧ f.length ≤ 65535 := by
  obtain ⟨h6, -, -, hl, -⟩ := (isFrame_iff m f).1 h
  exact ⟨h6, hl ▸ Nat.le_of_lt_succ (declaredLen f).isLt⟩

/-- The length of a valid frame fits its length field. -/
theorem toNat_ofNat_length_of_isFrame {m : Nat} {f : List Byte} (h : isFrame m f = true) :
    (BitVec.ofNat 16 f.length).toNat = f.length := by
  obtain ⟨-, -, -, hl, -⟩ := (isFrame_iff m f).1 h
  rw [← declaredLen_of_isFrame h, hl]

theorem frameFooter_of_isFrame {m : Nat} {f : List Byte} (h : isFrame m f = true) : frameFooter f = FOOTER := by
  simp only [isFrame, Bool.and_eq_true, beq_iff_eq] at h
  obtain ⟨-, hf⟩ := h
  exact hf

/-- The four bytes of header and length, the payload and the footer are the whole byte string. -/
theorem frame_split {f : List Byte} (h : 6 ≤ f.length) : f = f.take 4 ++ framePayload f ++ frameFooter f := by
  have hd : f.drop (f.length - 2) = (f.drop 4).drop (f.length - SKELETON) := by
    rw [List.drop_drop, show 4 + (f.length - SKELETON) = f.length - 2 by simp only [SKELETON]; omega]
  rw [frameFooter, hd, framePayload, List.append_assoc, List.take_append_drop, List.take_append_drop]

theorem hasFooter_frameOf (p : List Byte) : hasFooter (frameOf p) (frameOf p).length = true :=
  (hasFooter_end 0x0D 0x0A (by rw [frameOf, List.length_append]; rfl)).trans rfl

/-- A payload whose frame is within `MAX_LEN` and the length field makes a valid frame. -/
theorem isFrame_frameOf {m : Nat} {p : List Byte} (hm : p.length + 6 ≤ m) (hp : p.length ≤ 65529) :
    isFrame m (frameOf p) = true := by
  have hl : (declaredLen (frameOf p)).toNat = (frameOf p).length := by
    rw [declaredLen_frameOf, frameOf_length, BitVec.toNat_ofNat]
    exact Nat.mod_eq_of_lt (Nat.lt_succ_of_le (Nat.add_le_add_right hp 6))
  refine (isFrame_iff m _).2 ⟨?_, ?_, (hasHeader_iff _).2 ⟨rfl, rfl⟩, hl, hasFooter_frameOf p⟩
  · rw [frameOf_length]
    exact Nat.le_add_left 6 _
  · rwa [frameOf_length]

theorem framePayload_frameOf (p : List Byte) : framePayload (frameOf p) = p := by
  rw [framePayload, frameOf_length]
  exact List.take_left

/-- Settles O5: a valid frame is cut at its payload; a payload in that form passes the checks of R64. -/
theorem frameFormatIsExact : Obligations.FrameFormatIsExact := by
  constructor
  · intro m f h
    obtain ⟨h6, hmax⟩ := length_of_isFrame h
    obtain ⟨-, -, hh, -, -⟩ := (isFrame_iff m f).1 h
    have h4 : f.take 4 = HEADER ++ lenBytes (BitVec.ofNat 16 f.length) := by
      rw [← declaredLen_of_isFrame h, take_four_eq (Nat.le_trans (by decide) h6) hh]
    refine ⟨h6, hmax, (frame_split h6).trans ?_⟩
    rw [h4, frameFooter_of_isFrame h]
    rfl
  · intro p hp
    exact ⟨isFrame_frameOf (Nat.add_le_add_right hp 6) hp, framePayload_frameOf p⟩

theorem framePayload_length {f : List Byte} (h : 6 ≤ f.length) : (framePayload f).length = f.length - 6 := by
  simp only [framePayload, List.length_take, List.length_drop, SKELETON]
  omega

theorem framePayload_getElem? (f : List Byte) {j : Nat} (h : j < f.length - 6) :
    (framePayload f)[j]? = f[4 + j]? := by
  rw [framePayload, List.getElem?_take_of_lt (show j < f.length - SKELETON from h), List.getElem?_drop]

/-- Settles O6: the command is the first byte of the payload, where there is one. -/
theorem payloadIncludesTheCommandByte : Obligations.PayloadIncludesTheCommandByte := by
  intro m f hf
  obtain ⟨h6, -⟩ := length_of_isFrame hf
  have hlen := framePayload_length h6
  refine ⟨hlen, fun j hj => framePayload_getElem? f hj, fun e => ?_, fun h7 => ?_⟩
  · have hp : framePayload f = [] := List.eq_nil_of_length_eq_zero (by rw [hlen, e])
    exact ⟨hp, by rw [frameCommand, hp]; rfl⟩
  · have hc : frameCommand f = f[4]? := by
      rw [frameCommand, List.head?_eq_getElem?, framePayload_getElem? f (by omega)]
    exact ⟨hc, by rw [hc, List.getElem?_eq_getElem (by omega)]; exact Option.some_ne_none _⟩

/-- `SCAN.EMIT` is selected at a valid frame, whatever follows it (R64, R65). -/
theorem decodeScan_isFrame {m : Nat} {f : List Byte} (h : isFrame m f = true) (rest : List Byte) :
    decodeScan m (f ++ rest) = .emit (BitVec.ofNat 16 f.length) := by
  obtain ⟨h6, hm, hh, hl, hf⟩ := (isFrame_iff m f).1 h
  have hd : declaredLen (f ++ rest) = declaredLen f := declaredLen_append (by omega)
  have hle : f.length ≤ (f ++ rest).length := by simp
  rw [← declaredLen_of_isFrame h, ← hd]
  refine decodeScan_emit (Nat.le_trans h6 hle) ?_ ?_ ?_ ?_
  · rw [hasHeader_append (by omega), hh]
  · rw [hd, hl]
    exact (lenInRange_iff _ _).2 ⟨h6, hm⟩
  · rwa [hd, hl]
  · rw [hd, hl, hasFooter_append (by omega) le_rfl, hf]

/-- Settles O21: the selected step is `SCAN.EMIT` of the frame's length, and the piece it disposes of is the frame. -/
theorem frameAtTheCursorIsEmitted : Obligations.FrameAtTheCursorIsEmitted := by
  intro s f rest hp hw hf
  have hsel : s.selected = .emit (BitVec.ofNat 16 f.length) := by
    rw [State.selected, hw, decodeScan_isFrame hf]
  have hpiece : stepPiece s.window s.selected = some (.frame f) := by
    rw [hsel, hw, stepPiece, toNat_ofNat_length_of_isFrame hf, List.take_left]
  refine exec_scanStep_next.2 ⟨hp, hsel, ?_⟩
  rw [← hsel, scanEffect_piece hpiece]
  rfl

/-! ## One step of the machine -/

theorem ownAction_scanning {s : State} (hp : s.phase = .scanning) :
    ownAction s = .run (decode s.cfg.maxLen (.window s.window)) := by
  simp only [ownAction, hp]

theorem ownAction_stopped {s : State} (hp : s.phase = .stopped) : ownAction s = .endFeed := by
  simp only [ownAction, hp]

/-- A presented operation whose moment has come is taken out of the inbox and done. -/
theorem step_due {s : State} {r : Request} {rest : List Request} (hi : s.inbox = r :: rest)
    (hd : s.phase = .idle ∨ r.after = 0) : step s = perform (serve s r.op) { s with inbox := rest } := by
  simp only [step, fetch, hi, if_pos hd]

/-- During a `FEED`, an operation that still waits lets the decoder move and waits one step less. -/
theorem step_waiting {s : State} {n : Nat} {op : HostOp} {rest : List Request}
    (hi : s.inbox = { after := n + 1, op := op } :: rest) (hp : s.phase ≠ .idle) :
    step s = perform (ownAction s) { s with inbox := { after := n, op := op } :: rest } := by
  have hw : ¬ (s.phase = .idle ∨ n + 1 = 0) := not_or.2 ⟨hp, Nat.succ_ne_zero n⟩
  simp only [step, fetch, hi, if_neg hw, Nat.add_sub_cancel]

/-- Settles O46: with nothing presented, the decoder's own move; a request whose moment has come; one that waits. -/
theorem stepRunsTheFetchedInstruction : Obligations.StepRunsTheFetchedInstruction := by
  intro s
  refine ⟨fun hi hp => ?_, fun hi hp => step_stopped hi hp, fun hi hp => step_idle hi hp,
    fun n op rest hi hd => ?_, fun n op rest hi => ⟨fun hp => ?_, fun hp => ?_⟩⟩
  · rw [step_of_inbox_nil hi, ownAction_scanning hp]
    rfl
  · have hs := step_due hi hd
    refine ⟨?_, ?_, ?_, ?_, ?_⟩
    · rintro bits rfl
      exact hs
    · rintro c rfl
      exact hs
    · rintro rfl
      exact hs
    · rintro c rfl
      exact hs
    · rintro c rfl hp hc
      exact hs.trans (beginFeed_next.2 ⟨hp, hc, rfl⟩)
  · rw [step_waiting hi (by simp [hp]), ownAction_scanning hp]
    rfl
  · rw [step_waiting hi (by simp [hp]), ownAction_stopped hp]
    rfl

end Sys2Proof.Machine
end

section
/-! SUPPORT. Proofs of family 40: the catalog entries, each the frame around a payload of at least two bytes (the entry
of R98 as well as the ones the spec does not give), and what an operation of the encoder or of the decoder leaves
unchanged. -/

namespace Sys2Proof.Machine

/-! ## The catalog entries -/

/-- Every entry is the frame around a payload within the bounds of R100 and R60; the payload of R98 is `12 1A`. -/
theorem exists_payload_cmdBytes (id : CmdId) :
    ∃ p : List Byte, cmdBytes id = frameOf p ∧ 2 ≤ p.length ∧ p.length ≤ 65529 := by
  by_cases hid : id = .getTransmitPower
  · subst hid
    exact ⟨[0x12, 0x1A], by decide, by decide, by decide⟩
  · exact ⟨payloadOf id, cmdBytes_unknown id hid, payloadOf_length id⟩

/-- R91, in every build that accepts the entry's length. -/
theorem isFrame_cmdBytes {id : CmdId} {m : Nat} (h : (cmdBytes id).length ≤ m) : isFrame m (cmdBytes id) = true := by
  obtain ⟨p, hp, -, hmax⟩ := exists_payload_cmdBytes id
  rw [hp, frameOf_length] at h
  rw [hp]
  exact isFrame_frameOf h hmax

theorem length_cmdBytes (id : CmdId) : 8 ≤ (cmdBytes id).length ∧ (cmdBytes id).length ≤ 65535 := by
  obtain ⟨p, hp, hmin, hmax⟩ := exists_payload_cmdBytes id
  rw [hp, frameOf_length]
  exact ⟨Nat.add_le_add_right hmin 6, Nat.add_le_add_right hmax 6⟩

/-- The default build accepts the length of every entry. -/
theorem isFrame_standard_cmdBytes (id : CmdId) : isFrame Config.standard.maxLen (cmdBytes id) = true :=
  isFrame_cmdBytes (length_cmdBytes id).2

/-- The byte before the footer is the last byte of the payload (R63). -/
theorem frameOf_getElem?_trailer (q : List Byte) (b : Byte) :
    (frameOf (q ++ [b]))[(frameOf (q ++ [b])).length - 3]? = some b := by
  have hlen : (frameOf (q ++ [b])).length = q.length + 1 + 6 := by
    rw [frameOf_length, List.length_append, List.length_singleton]
  have hpay := framePayload_getElem? (frameOf (q ++ [b])) (j := q.length) (by omega)
  rw [framePayload_frameOf, List.getElem?_concat_length] at hpay
  rw [hpay, hlen, show q.length + 1 + 6 - 3 = 4 + q.length by omega]

theorem ne_getTransmitPower_of_unknown {id : CmdId} (h : id ∈ unknownCommands) : id ≠ .getTransmitPower := by
  rintro rfl
  exact absurd h (by decide)

/-- The byte before the footer of an entry that the spec does not give (R100). -/
theorem catalogByte_trailer {id : CmdId} (h : id ∈ unknownCommands) :
    catalogByte id ((cmdBytes id).length - 3) = some (trailerOf id) := by
  rw [catalogByte, cmdBytes_unknown id (ne_getTransmitPower_of_unknown h)]
  exact frameOf_getElem?_trailer (Config.cmdOpcode id :: (Config.cmdMiddle id).take 65527) (trailerOf id)

theorem trailerOf_command22 : trailerOf command22 = 0x22 := if_pos rfl

theorem trailerOf_command84 : trailerOf command84 = 0x84 := by
  obtain ⟨-, -, hne⟩ := trailer_commands
  rw [trailerOf, if_neg hne, if_pos rfl]

/-- Settles O25: each operation is decoded from its code and answers its entry, and every entry is a frame. -/
theorem encoderReturnsItsCatalogEntry : Obligations.EncoderReturnsItsCatalogEntry := by
  refine ⟨rfl, isFrame_standard_cmdBytes, fun m s => ?_⟩
  exact ⟨decode_encode_command m .scanContinuous, exec_command .scanContinuous s,
    decode_encode_command m .scanSingle, exec_command .scanSingle s,
    decode_encode_command m .scanStop, exec_command .scanStop s,
    decode_encode_command m .getHardwareVersion, exec_command .getHardwareVersion s,
    decode_encode_command m .getFirmwareVersion, exec_command .getFirmwareVersion s,
    decode_encode_command m .getDeviceId, exec_command .getDeviceId s,
    decode_encode_command m .getTransmitPower, exec_command .getTransmitPower s,
    decode_encode_command m .getAntennaStatus, exec_command .getAntennaStatus s⟩

/-- Settles O26: the known entry ends in `1A`, and two different unknown ones are chosen to end in `22` and `84`. -/
theorem catalogEntriesAreFrames : Obligations.CatalogEntriesAreFrames := by
  obtain ⟨h22, h84, -⟩ := trailer_commands
  refine ⟨fun id m h => isFrame_cmdBytes h, fun id => ⟨(length_cmdBytes id).1, isFrame_standard_cmdBytes id⟩,
    ⟨.getTransmitPower, rfl⟩, ⟨command22, ?_⟩, ⟨command84, ?_⟩⟩
  · rw [catalogByte_trailer h22, trailerOf_command22]
  · rw [catalogByte_trailer h84, trailerOf_command84]

/-! ## What an operation leaves unchanged -/

/-- An operation that is not read from the encoder's port is no `ENC` operation (R72). -/
theorem ne_command_of_sourceOf {i : Instr} (h : Laws.sourceOf i ≠ .port) (id : CmdId) : i ≠ id.instr := by
  rintro rfl
  cases id <;> exact h rfl

theorem sourceOf_scanStep (k : ScanStep) : Laws.sourceOf k.instr = .window := by
  cases k <;> rfl

/-- A `FEED` writes the buffer, the cursor, the phase and the events alone (R130). -/
theorem feedResult_frame (c : List Byte) (s : State) :
    (feedResult c s).cfg = s.cfg ∧ (feedResult c s).encOut = s.encOut ∧ (feedResult c s).inbox = s.inbox := by
  rw [feedResult_eq]
  exact ⟨rfl, rfl, rfl⟩

/-- Settles O52: an `ENC` operation appends its entry; a scan step, a `FEED` and a `RESET` each pass on the parameters,
what the host presents and what the encoder has returned. -/
theorem operationsKeepToTheirPart : Obligations.OperationsKeepToTheirPart := by
  intro i s t h
  rcases exec_cases h with ⟨id, rfl, rfl⟩ | ⟨rfl, -, rfl⟩ | ⟨c, rfl, -, -, rfl⟩ | ⟨rfl, rfl⟩
  · exact ⟨rfl, rfl, .inl ⟨id, rfl, rfl, rfl, rfl, rfl, fun _ => rfl⟩⟩
  · obtain ⟨-, hcfg, henc, hib⟩ := scanEffect_frame s.selected s
    exact ⟨hcfg, hib, .inr ⟨ne_command_of_sourceOf (by simp [sourceOf_scanStep]), henc⟩⟩
  · obtain ⟨hcfg, henc, hib⟩ := feedResult_frame c s
    exact ⟨hcfg, hib, .inr ⟨ne_command_of_sourceOf (by simp [Laws.sourceOf]), henc⟩⟩
  · exact ⟨rfl, rfl, .inr ⟨ne_command_of_sourceOf (by simp [Laws.sourceOf]), rfl⟩⟩

end Sys2Proof.Machine
end

section
/-! SUPPORT. Proofs of family 41: the scan steps. Each of R111 to R116 is the effect of the step whose row of R65
applies (`exec_of_rowApplies`). What holds of every step follows from three figures that the step and its window fix:
the distance of the cursor (R23), the events (R161) and whether the scan goes on (R117). -/

namespace Sys2Proof.Machine

/-! ## The steps one by one -/

/-- A scan in progress takes the step whose row applies (R65). -/
theorem exec_of_rowApplies {s : State} {k : ScanStep} (hp : s.phase = .scanning) (hc : s.cur ≤ s.fill)
    (hk : s.rowApplies k) : exec k.instr s = .next (scanEffect k s) :=
  exec_scanStep_next.2 ⟨hp, selected_of_rowApplies hc hk, rfl⟩

theorem hdr_iff (s : State) : s.hdr ↔ s.readByte s.cur = some 0xC8 ∧ s.readByte (s.cur + 1) = some 0x8C :=
  and_congr (memRead_one_iff s _ 0xC8) (memRead_one_iff s _ 0x8C)

theorem ftr_iff (s : State) (len : Len) : s.ftr len ↔
    s.readByte (s.cur + len.toNat - 2) = some 0x0D ∧ s.readByte (s.cur + len.toNat - 1) = some 0x0A :=
  and_congr (memRead_one_iff s _ 0x0D) (memRead_one_iff s _ 0x0A)

/-- Settles O11: the first row of R65 asks for nothing but `W < 6`. -/
theorem scanShortStopsAndKeepsTheBytes : Obligations.ScanShortStopsAndKeepsTheBytes := by
  intro s hp hc hw
  exact exec_of_rowApplies (k := .short) hp hc hw

/-- Settles O12: one differing byte is enough for the header test to fail. -/
theorem scanSkip1AdvancesOneByteSilently : Obligations.ScanSkip1AdvancesOneByteSilently := by
  intro s hp hc h6 hne
  have hh : ¬ s.hdr := by rwa [hdr_iff, not_and_or]
  exact exec_of_rowApplies (k := .skip1) hp hc ⟨h6, hh⟩

/-- Settles O13: a length below 6 or above `MAX_LEN` is not in range. -/
theorem scanBadlenResyncsByTwo : Obligations.ScanBadlenResyncsByTwo := by
  intro s len hp hc h6 h0 h1 hl hbad
  have hr : ¬ s.inRange len := by rwa [State.inRange, not_and_or, Nat.not_le, Nat.not_le]
  exact exec_of_rowApplies (k := .badlen len) hp hc ⟨h6, (hdr_iff s).2 ⟨h0, h1⟩, hl, hr⟩

/-- Settles O14: the row of `SCAN.WAIT`. -/
theorem scanWaitStopsAndKeepsTheBytes : Obligations.ScanWaitStopsAndKeepsTheBytes := by
  intro s len hp hc h6 h0 h1 hl hmin hmax hshort
  exact exec_of_rowApplies (k := .wait len) hp hc ⟨h6, (hdr_iff s).2 ⟨h0, h1⟩, hl, ⟨hmin, hmax⟩, hshort⟩

/-- Settles O15: the row of `SCAN.EMIT`; the frame reported is the copy `BUF[CUR..CUR+L)`. -/
theorem scanEmitReportsTheFrame : Obligations.ScanEmitReportsTheFrame := by
  intro s len hp hc h6 h0 h1 hl hmin hmax hfit hf0 hf1
  refine ⟨s.frameAt len.toNat, frameAt_length hfit, fun j hj => frameAt_getElem? s hj, ?_⟩
  exact exec_of_rowApplies (k := .emit len) hp hc
    ⟨h6, (hdr_iff s).2 ⟨h0, h1⟩, hl, ⟨hmin, hmax⟩, hfit, (ftr_iff s len).2 ⟨hf0, hf1⟩⟩

/-- Settles O16: one wrong byte is enough for the footer test to fail. -/
theorem scanResync2SkipsOnlyTheHeader : Obligations.ScanResync2SkipsOnlyTheHeader := by
  intro s len hp hc h6 h0 h1 hl hmin hmax hfit hne
  have hf : ¬ s.ftr len := by rwa [ftr_iff, not_and_or]
  exact exec_of_rowApplies (k := .resync2 len) hp hc ⟨h6, (hdr_iff s).2 ⟨h0, h1⟩, hl, ⟨hmin, hmax⟩, hfit, hf⟩

/-! ## What every step does -/

/-- The events of a step at the front of `w`: the event of the piece it disposes of, if there is one (R161, R165). -/
def stepEvents (w : List Byte) (k : ScanStep) : List Event := ((stepPiece w k).bind Piece.event).toList

/-- The phase in which a step leaves a scan in progress (R117). -/
def nextPhase (k : ScanStep) : Phase := if k.stops = true then .stopped else .scanning

theorem stepEvents_length_le (w : List Byte) (k : ScanStep) : (stepEvents w k).length ≤ 1 :=
  Option.length_toList_le

theorem nextPhase_eq (k : ScanStep) : nextPhase k = .scanning ∨ nextPhase k = .stopped := by
  unfold nextPhase
  split_ifs
  · exact .inr rfl
  · exact .inl rfl

theorem scanEffect_cur (k : ScanStep) (s : State) : (scanEffect k s).cur = s.cur + k.distance := by
  cases k <;> rfl

theorem scanEffect_fill (k : ScanStep) (s : State) : (scanEffect k s).fill = s.fill := by
  cases k <;> rfl

theorem scanEffect_phase (k : ScanStep) {s : State} (hp : s.phase = .scanning) :
    (scanEffect k s).phase = nextPhase k := by
  cases hk : k.stops with
  | true => rw [scanEffect_stops hk, nextPhase, if_pos hk, State.stop_phase]
  | false => rw [scanEffect_continues hk, hp, nextPhase, if_neg (Bool.eq_false_iff.1 hk)]

theorem scanEffect_events (k : ScanStep) (s : State) :
    (scanEffect k s).events = s.events ++ stepEvents s.window k := by
  cases k with
  | short => exact (List.append_nil _).symm
  | skip1 => exact (List.append_nil _).symm
  | badlen len => rfl
  | wait len => exact (List.append_nil _).symm
  | emit len => rfl
  | resync2 len => rfl

/-- A scan step as one update of the state: cursor, events and phase, each fixed by the step and the window (R110). -/
theorem scanEffect_eq (k : ScanStep) {s : State} (hp : s.phase = .scanning) :
    scanEffect k s = { s with
      cur := s.cur + k.distance
      events := s.events ++ stepEvents s.window k
      phase := nextPhase k } := by
  obtain ⟨hbuf, hcfg, henc, hib⟩ := scanEffect_frame k s
  exact State.ext_fields hcfg hbuf (scanEffect_cur k s) (scanEffect_phase k hp) (scanEffect_events k s) henc hib

/-- Settles O17: the step is selected by `MAX_LEN` and the window, and its effect is fixed by the step and the window. -/
theorem scanStepReadsOnlyTheWindow : Obligations.ScanStepReadsOnlyTheWindow := by
  intro k s s' t hw hcfg hphase h
  obtain ⟨hp, hk, rfl⟩ := exec_scanStep_next.1 h
  have hp' : s'.phase = .scanning := hphase ▸ hp
  have hk' : s'.selected = k := by rw [← hk, State.selected, State.selected, hw, hcfg]
  refine ⟨stepEvents s.window k, nextPhase k, stepEvents_length_le _ k, nextPhase_eq k, scanEffect_eq k hp, ?_⟩
  rw [exec_scanStep_next.2 ⟨hp', hk', rfl⟩, scanEffect_eq k hp', hw]

/-! ## Progress -/

/-- The selected step goes no further than the bytes that are there. -/
theorem distance_selected_le (s : State) : s.selected.distance ≤ s.window.length := by
  cases hk : s.selected with
  | short => exact Nat.zero_le _
  | skip1 => exact Nat.le_trans (show 1 ≤ 6 by decide) (selected_has_skeleton (s := s) (by simp [hk]))
  | badlen len => exact Nat.le_trans (show 2 ≤ 6 by decide) (selected_has_skeleton (s := s) (by simp [hk]))
  | wait len => exact Nat.zero_le _
  | emit len =>
    obtain ⟨-, -, hfit⟩ := selected_emit hk
    exact hfit
  | resync2 len => exact Nat.le_trans (show 2 ≤ 6 by decide) (selected_has_skeleton (s := s) (by simp [hk]))

/-- The cursor stays in the buffer (R23). -/
theorem cur_scanEffect_le_fill {s : State} (hc : s.cur ≤ s.fill) : (scanEffect s.selected s).cur ≤ s.fill := by
  have hd := distance_selected_le s
  rw [scanEffect_cur]
  exact (le_window_length_iff hc _).1 hd

/-- A selected step either continues the scan and moves on, by at least `MIN_LEN` bytes where it is `SCAN.EMIT`, or
stops it where it stands (R118). -/
theorem selected_continues_or_stops (s : State) :
    (s.selected.stops = false ∧ 0 < s.selected.distance ∧
      (s.selected = .skip1 ∨ (∃ len, s.selected = .badlen len) ∨ (∃ len, s.selected = .resync2 len) ∨
        ∃ len : Len, s.selected = .emit len ∧ 6 ≤ len.toNat)) ∨
    (s.selected.stops = true ∧ s.selected.distance = 0 ∧ (s.selected = .short ∨ ∃ len, s.selected = .wait len)) := by
  cases hk : s.selected with
  | short => exact .inr ⟨rfl, rfl, .inl rfl⟩
  | skip1 => exact .inl ⟨rfl, Nat.one_pos, .inl rfl⟩
  | badlen len => exact .inl ⟨rfl, Nat.two_pos, .inr (.inl ⟨len, rfl⟩)⟩
  | wait len => exact .inr ⟨rfl, rfl, .inr ⟨len, rfl⟩⟩
  | emit len =>
    obtain ⟨hmin, -, -⟩ := selected_emit hk
    exact .inl ⟨rfl, Nat.lt_of_lt_of_le (by decide) hmin, .inr (.inr (.inr ⟨len, rfl, hmin⟩))⟩
  | resync2 len => exact .inl ⟨rfl, Nat.two_pos, .inr (.inr (.inl ⟨len, rfl⟩))⟩

/-- A scan comes to a stopping step, by induction on the bytes at the cursor. -/
theorem exists_scanPath_stopped {s : State} (hp : s.phase = .scanning) (hc : s.cur ≤ s.fill) :
    ∃ (ks : List ScanStep) (last : ScanStep) (t : State), scanPath s (ks ++ [last]) t ∧ t.phase = .stopped ∧
      ks.length ≤ s.fill - s.cur ∧ last.stops = true := by
  induction hn : s.fill - s.cur using Nat.strong_induction_on generalizing s with
  | _ n ih =>
    rcases selected_continues_or_stops s with ⟨hgo, hpos, -⟩ | ⟨hstop, -, -⟩
    · have hfill := scanEffect_fill s.selected s
      have hcur := scanEffect_cur s.selected s
      have hle := cur_scanEffect_le_fill hc
      obtain ⟨ks, last, t, hpath, ht, hlen, hlast⟩ := ih _ (by omega)
        ((scanEffect_continues hgo s).trans hp) (hle.trans_eq hfill.symm) rfl
      refine ⟨s.selected :: ks, last, t, scanPath_cons.2 ⟨hp, rfl, hpath⟩, ht, ?_, hlast⟩
      rw [List.length_cons]
      omega
    · refine ⟨[], s.selected, s.stop, ?_, rfl, Nat.zero_le _, hstop⟩
      exact scanPath_cons.2 ⟨hp, rfl, scanPath_nil.2 (scanEffect_stops hstop s)⟩

/-- Settles O19: a step that answers is the selected one, which moves on or stops; and the path to the stop. -/
theorem scanMakesProgressAndStops : Obligations.ScanMakesProgressAndStops := by
  refine ⟨fun s t k hc h => ?_, fun s hp hc => exists_scanPath_stopped hp hc⟩
  obtain ⟨hp, rfl, rfl⟩ := exec_scanStep_next.1 h
  have hfill := scanEffect_fill s.selected s
  have hcur := scanEffect_cur s.selected s
  refine ⟨hfill, (cur_scanEffect_le_fill hc).trans_eq hfill.symm, hcur, ?_⟩
  rw [scanEffect_phase _ hp, hcur]
  rcases selected_continues_or_stops s with ⟨hgo, hpos, hkind⟩ | ⟨hstop, hzero, hkind⟩
  · exact .inl ⟨if_neg (Bool.eq_false_iff.1 hgo), Nat.lt_add_of_pos_right hpos, hkind⟩
  · exact .inr ⟨if_pos hstop, by rw [hzero, Nat.add_zero], hkind⟩

/-! ## Header starts -/

theorem hasHeader_window_iff_readByte (s : State) :
    hasHeader s.window = true ↔ s.readByte s.cur = some 0xC8 ∧ s.readByte (s.cur + 1) = some 0x8C := by
  rw [hasHeader_iff, window_getElem?, window_getElem?, Nat.add_zero]

/-- The second byte of a header begins no header: of the two bytes that a `Resync` skips, only the first can (R119). -/
theorem eq_cur_of_header_start {s : State} {q : Nat} (hh : hasHeader s.window = true) (hq : s.cur ≤ q)
    (hlt : q < s.cur + 2) (h0 : s.readByte q = some 0xC8) : q = s.cur := by
  obtain ⟨-, h1⟩ := (hasHeader_window_iff_readByte s).1 hh
  by_contra hne
  obtain rfl : q = s.cur + 1 := by omega
  simp [h1] at h0

/-- Settles O20: a stopping step leaves nothing behind, `SCAN.SKIP1` one byte at which no header begins, and a `Resync`
the two bytes of the header it abandons. -/
theorem noHeaderStartIsSteppedOver : Obligations.NoHeaderStartIsSteppedOver := by
  intro s t k h hne q hq hlt h0 h1
  obtain ⟨-, hk, rfl⟩ := exec_scanStep_next.1 h
  rw [scanEffect_cur] at hlt
  cases k with
  | short => exact absurd hlt (Nat.not_lt.2 hq)
  | wait len => exact absurd hlt (Nat.not_lt.2 hq)
  | emit len => exact absurd rfl (hne len)
  | skip1 =>
    obtain ⟨-, hno⟩ := of_decodeScan_skip1 hk
    obtain rfl : q = s.cur := Nat.le_antisymm (Nat.le_of_lt_succ hlt) hq
    rw [(hasHeader_window_iff_readByte s).2 ⟨h0, h1⟩] at hno
    cases hno
  | badlen len =>
    obtain ⟨-, hh, -⟩ := declaredLen_of_decodeScan (.inl hk)
    exact ⟨eq_cur_of_header_start hh hq hlt h0, .inl ⟨len, rfl⟩⟩
  | resync2 len =>
    obtain ⟨-, hh, -⟩ := declaredLen_of_decodeScan (.inr (.inr (.inr hk)))
    exact ⟨eq_cur_of_header_start hh hq hlt h0, .inr ⟨len, rfl⟩⟩

end Sys2Proof.Machine
end

section
/-! SUPPORT. Proofs of family 42: `FEED` and `RESET`. A `FEED` is the scan of the bytes in the buffer followed by the
chunk (`feedResult_eq`). A decision that continues the scan is the same with more bytes behind (`decodeScan_append`), so
a scan can be interrupted anywhere (`streamOf_append`) and a run of `FEED`s is one `FEED` of all its bytes
(`execAll_feed`). What is left of each law of the stream is the scan of the stream it speaks of. -/

namespace Sys2Proof

/-! ## Decisions and longer streams -/

/-- R136 (a): each continuing row of R65 reads bytes that are there, and the bytes behind do not change them. -/
theorem decodeScan_append {m : Nat} {w : List Byte} (h : (decodeScan m w).stops = false) (x : List Byte) :
    decodeScan m (w ++ x) = decodeScan m w := by
  have hle : w.length ≤ (w ++ x).length := by simp
  have hdr (hl : SKELETON ≤ w.length) : hasHeader (w ++ x) = hasHeader w :=
    hasHeader_append (Nat.le_trans (by decide) hl)
  have hdecl (hl : SKELETON ≤ w.length) : declaredLen (w ++ x) = declaredLen w :=
    declaredLen_append (Nat.le_trans (by decide) hl)
  have hftr (hr : lenInRange m (declaredLen w).toNat = true) (hc : (declaredLen w).toNat ≤ w.length) :
      hasFooter (w ++ x) (declaredLen w).toNat = hasFooter w (declaredLen w).toNat :=
    hasFooter_append (Nat.le_trans (by decide) ((lenInRange_iff _ _).1 hr).1) hc
  rcases decodeScan_cases m w with ⟨e, -⟩ | ⟨e, hl, hh⟩ | ⟨e, hl, hh, hr⟩ | ⟨e, -⟩ | ⟨e, hl, hh, hr, hc, hf⟩ |
    ⟨e, hl, hh, hr, hc, hf⟩
  · simp [e, ScanStep.stops] at h
  · rw [e, decodeScan_skip1 (hl.trans hle) ((hdr hl).trans hh)]
  · rw [e, decodeScan_badlen (hl.trans hle) ((hdr hl).trans hh) (by rwa [hdecl hl]), hdecl hl]
  · simp [e, ScanStep.stops] at h
  · rw [e, decodeScan_emit (hl.trans hle) ((hdr hl).trans hh) (by rwa [hdecl hl])
      (by rw [hdecl hl]; exact hc.trans hle) (by rwa [hdecl hl, hftr hr hc]), hdecl hl]
  · rw [e, decodeScan_resync2 (hl.trans hle) ((hdr hl).trans hh) (by rwa [hdecl hl])
      (by rw [hdecl hl]; exact hc.trans hle) (by rwa [hdecl hl, hftr hr hc]), hdecl hl]

/-- A stop is for want of bytes: no 16-bit length asks for 65536 of them. -/
theorem decodeScan_continues_of_long (m : Nat) {w : List Byte} (h : 65536 ≤ w.length) :
    (decodeScan m w).stops = false := by
  rw [Bool.eq_false_iff, ne_eq, Machine.decodeScan_stops_iff]
  rintro (h5 | ⟨-, -, -, -, hw⟩)
  · omega
  · have := (declaredLen w).isLt
    omega

/-- Settles O22: continuing rows read bytes that are there; with 65536 bytes more, every row continues. -/
theorem decisionsDependOnTheStreamOnly : Obligations.DecisionsDependOnTheStreamOnly := by
  intro m w
  have hlong : 65536 ≤ (w ++ List.replicate 65536 0).length := by
    rw [List.length_append, List.length_replicate]
    exact Nat.le_add_left _ _
  exact ⟨decodeScan_append, fun _ => ⟨_, decodeScan_continues_of_long m hlong⟩⟩

/-- The length of an emitted frame is in range and there (R115). -/
theorem of_decodeScan_emit {m : Nat} {w : List Byte} {len : Len} (h : decodeScan m w = .emit len) :
    MIN_LEN ≤ len.toNat ∧ len.toNat ≤ w.length := by
  rcases decodeScan_cases m w with ⟨e, -⟩ | ⟨e, -⟩ | ⟨e, -⟩ | ⟨e, -⟩ | ⟨e, -, -, hr, hc, -⟩ | ⟨e, -⟩ <;>
    rw [e] at h <;> cases h
  exact ⟨((lenInRange_iff _ _).1 hr).1, hc⟩

end Sys2Proof

namespace Sys2Proof.Machine

/-! ## The scan of a stream and its pieces -/

/-- What a step disposes of is the same with every longer stream (R136 (a)). -/
theorem stepPiece_append {m : Nat} {w : List Byte} {p : Piece} (h : stepPiece w (decodeScan m w) = some p)
    (x : List Byte) : stepPiece (w ++ x) (decodeScan m (w ++ x)) = some p := by
  have hgo : (decodeScan m w).stops = false := by
    rw [Bool.eq_false_iff, ne_eq, ← stepPiece_none_iff w, h]
    exact Option.some_ne_none p
  rw [decodeScan_append hgo, ← h]
  cases hk : decodeScan m w with
  | short => rfl
  | skip1 =>
    obtain ⟨hl, -⟩ := of_decodeScan_skip1 hk
    match w, hl with
    | a :: r, _ => rfl
  | badlen len => rfl
  | wait len => rfl
  | emit len => rw [stepPiece, stepPiece, List.take_append_of_le_length (of_decodeScan_emit hk).2]
  | resync2 len => rfl

/-- A scan of the stream so far, then of its tail with more bytes behind, is the scan of the longer stream (R136). -/
theorem streamOf_append (m : Nat) (w x : List Byte) :
    streamOf m (w ++ x) = ((streamOf m w).1 ++ (streamOf m ((streamOf m w).2 ++ x)).1,
      (streamOf m ((streamOf m w).2 ++ x)).2) := by
  induction w using streamOf_induction (m := m) with
  | stop w h => rw [streamOf_none h, List.nil_append]
  | cont w p h ih =>
    obtain ⟨-, -, hlen⟩ := stepPiece_front h
    rw [streamOf_some (stepPiece_append h x), List.drop_append_of_le_length hlen, ih, streamOf_some h,
      List.cons_append]

/-- An event uses up at least two bytes (R141). -/
theorem two_mul_events_le_bytes {m : Nat} {w : List Byte} {p : Piece}
    (h : stepPiece w (decodeScan m w) = some p) : 2 * p.event.toList.length ≤ p.bytes.length := by
  cases hk : decodeScan m w <;> rw [hk] at h <;> cases h
  case skip1 => exact Nat.zero_le _
  case badlen => exact le_rfl
  case resync2 => exact le_rfl
  case emit len =>
    obtain ⟨hmin, hfit⟩ := of_decodeScan_emit hk
    rw [Piece.bytes, List.length_take_of_le hfit]
    exact Nat.le_trans (show 2 ≤ 6 by decide) hmin

theorem two_mul_events_streamOf_le (m : Nat) (w : List Byte) :
    2 * ((streamOf m w).1.filterMap Piece.event).length ≤ w.length := by
  induction w using streamOf_induction (m := m) with
  | stop w h =>
    rw [streamOf_none h]
    exact Nat.zero_le _
  | cont w p h ih =>
    have hev := two_mul_events_le_bytes h
    obtain ⟨-, -, hlen⟩ := stepPiece_front h
    rw [List.length_drop] at ih
    rw [streamOf_some h, List.filterMap_cons]
    cases he : p.event with
    | none => exact ih.trans (Nat.sub_le _ _)
    | some e =>
      simp only [he, Option.toList_some, List.length_cons] at hev ⊢
      omega

/-- The bytes of a list of pieces, counted: those of the events and one for each silent skip (R137). -/
theorem length_flatMap_bytes (ps : List Piece) :
    (ps.flatMap Piece.bytes).length = ((ps.filterMap Piece.event).map Event.byteCount).sum +
      ps.countP (fun p => p.event.isNone) := by
  induction ps with
  | nil => rfl
  | cons p ps ih =>
    rw [List.flatMap_cons, List.length_append, ih, List.filterMap_cons, List.countP_cons]
    cases p with
    | frame f => exact (Nat.add_assoc _ _ _).symm
    | resynced => exact (Nat.add_assoc _ _ _).symm
    | skipped b => exact (Nat.add_comm _ _).trans (Nat.add_assoc _ _ _)

/-! ## The scans of particular streams -/

theorem streamOf_of_stops {m : Nat} {w : List Byte} (h : (decodeScan m w).stops = true) : streamOf m w = ([], w) :=
  streamOf_none ((stepPiece_none_iff _ _).2 h)

theorem streamOf_nil (m : Nat) : streamOf m [] = ([], []) :=
  streamOf_of_stops (by rw [decodeScan_short (by decide)]; rfl)

theorem stepPiece_isFrame {m : Nat} {f : List Byte} (h : isFrame m f = true) (x : List Byte) :
    stepPiece (f ++ x) (decodeScan m (f ++ x)) = some (.frame f) := by
  rw [decodeScan_isFrame h, stepPiece, toNat_ofNat_length_of_isFrame h, List.take_left]

/-- A frame at the front is disposed of whole (R115). -/
theorem streamOf_frame_append {m : Nat} {f : List Byte} (h : isFrame m f = true) (x : List Byte) :
    streamOf m (f ++ x) = (.frame f :: (streamOf m x).1, (streamOf m x).2) := by
  rw [streamOf_some (stepPiece_isFrame h x), Piece.bytes, List.drop_left]

theorem streamOf_frame {m : Nat} {f : List Byte} (h : isFrame m f = true) : streamOf m f = ([.frame f], []) := by
  have hf := streamOf_frame_append h []
  rwa [List.append_nil, streamOf_nil] at hf

theorem streamOf_frames {m : Nat} {fs : List (List Byte)} (h : ∀ f ∈ fs, isFrame m f = true) :
    streamOf m fs.flatten = (fs.map .frame, []) := by
  induction fs with
  | nil => exact streamOf_nil m
  | cons f fs ih =>
    obtain ⟨hf, hfs⟩ := List.forall_mem_cons.1 h
    rw [List.flatten_cons, streamOf_frame_append hf, ih hfs, List.map_cons]

/-- Nothing is disposed of before the last byte of a frame has come: what would be is the frame (R142). -/
theorem streamOf_take_frame {m k : Nat} {f : List Byte} (h : isFrame m f = true) (hk : k < f.length) :
    streamOf m (f.take k) = ([], f.take k) := by
  cases hs : stepPiece (f.take k) (decodeScan m (f.take k)) with
  | none => exact streamOf_none hs
  | some p =>
    obtain ⟨-, -, hlen⟩ := stepPiece_front hs
    have hp := stepPiece_append hs (f.drop k)
    have hf := stepPiece_isFrame h []
    rw [List.take_append_drop] at hp
    rw [List.append_nil, hp] at hf
    obtain rfl := Option.some.inj hf
    rw [Piece.bytes, List.length_take] at hlen
    omega

/-- A byte that no header begins with is skipped (R112). -/
theorem streamOf_skip {m : Nat} {a : Byte} {r : List Byte} (hl : 5 ≤ r.length) (hh : hasHeader (a :: r) = false) :
    streamOf m (a :: r) = (.skipped a :: (streamOf m r).1, (streamOf m r).2) := by
  have hp : stepPiece (a :: r) (decodeScan m (a :: r)) = some (.skipped a) := by
    rw [decodeScan_skip1 (w := a :: r) (Nat.succ_le_succ hl) hh]
    rfl
  rw [streamOf_some hp]
  rfl

theorem noHeaderPair_cons_cons_iff {a b : Byte} {r : List Byte} : noHeaderPair (a :: b :: r) = true ↔
    ¬ (a = 0xC8 ∧ b = 0x8C) ∧ noHeaderPair (b :: r) = true := by
  rw [noHeaderPair, Bool.and_eq_true, Bool.not_eq_true', Bool.eq_false_iff, ne_eq, Bool.and_eq_true, beq_iff_eq,
    beq_iff_eq]

theorem noHeaderPair_tail {a : Byte} {r : List Byte} (h : noHeaderPair (a :: r) = true) : noHeaderPair r = true := by
  cases r with
  | nil => rfl
  | cons b r => exact (noHeaderPair_cons_cons_iff.1 h).2

/-- No header begins at a byte of garbage, even where the last one meets the header of what follows (R143). -/
theorem hasHeader_garbage {a : Byte} {r x : List Byte} (h : noHeaderPair (a :: r) = true)
    (hx : x = [] ∨ hasHeader x = true) : hasHeader (a :: r ++ x) = false := by
  rw [Bool.eq_false_iff, ne_eq, hasHeader_iff]
  rintro ⟨h0, h1⟩
  cases r with
  | nil =>
    rcases hx with rfl | hx
    · simp at h1
    · obtain ⟨hx0, -⟩ := (hasHeader_iff x).1 hx
      simp [hx0] at h1
  | cons b r => exact (noHeaderPair_cons_cons_iff.1 h).1 ⟨Option.some.inj h0, Option.some.inj h1⟩

/-- All of a stream without a header pair but its last five bytes is skipped (R140). -/
theorem streamOf_garbage (m : Nat) {g : List Byte} (h : noHeaderPair g = true) :
    streamOf m g = ((g.take (g.length - 5)).map .skipped, g.drop (g.length - 5)) := by
  induction g with
  | nil => exact streamOf_nil m
  | cons a r ih =>
    by_cases hl : 5 ≤ r.length
    · have hh := hasHeader_garbage h (.inl rfl)
      rw [List.append_nil] at hh
      rw [streamOf_skip hl hh, ih (noHeaderPair_tail h), List.length_cons,
        show r.length + 1 - 5 = (r.length - 5) + 1 by omega]
      rfl
    · have hs : decodeScan m (a :: r) = .short := decodeScan_short (Nat.succ_lt_succ (Nat.not_le.1 hl))
      rw [streamOf_of_stops (by rw [hs]; rfl), List.length_cons, show r.length + 1 - 5 = 0 by omega]
      rfl

/-- Garbage before a frame is skipped byte by byte, and the frame found (R143). -/
theorem streamOf_garbage_frame {m : Nat} {g f : List Byte} (hg : noHeaderPair g = true) (hf : isFrame m f = true) :
    streamOf m (g ++ f) = (g.map .skipped ++ [.frame f], []) := by
  induction g with
  | nil => exact streamOf_frame hf
  | cons a r ih =>
    obtain ⟨h6, -, hh, -, -⟩ := (isFrame_iff m f).1 hf
    have hl : 5 ≤ (r ++ f).length := by
      rw [List.length_append]
      omega
    rw [List.cons_append, streamOf_skip hl (hasHeader_garbage hg (.inr hh)), ih (noHeaderPair_tail hg)]
    rfl

theorem filterMap_event_skipped (g : List Byte) : (g.map Piece.skipped).filterMap Piece.event = [] := by
  simp [Piece.event]

/-! ## `FEED` -/

/-- Settles O31: the two refusals of the guard that `FEED` runs under. -/
theorem feedOutsideTheContractIsRefused : Obligations.FeedOutsideTheContractIsRefused := by
  intro s c
  refine ⟨fun hp => feedGuard_refused.2 (.inl ⟨rfl, hp⟩), fun hp m hm hlt => ?_⟩
  refine feedGuard_refused.2 (.inr ⟨rfl, hp, Bool.eq_false_iff.2 fun hc => ?_⟩)
  exact Nat.not_le.2 hlt ((allowsChunk_iff _ _).1 hc m hm)

/-- Settles O32: `RESET` has no guard. -/
theorem resetEmptiesTheDecoder : Obligations.ResetEmptiesTheDecoder :=
  exec_reset

/-- The rounds of the scan loop are the scan steps as operations. -/
theorem exists_scanPath_scanLoop : ∀ (n : Nat) (s : State), ∃ ks, scanPath s ks (scanLoop n s)
  | 0, s => ⟨[], scanPath_nil.2 rfl⟩
  | n + 1, s => by
    unfold scanLoop
    split_ifs with hp
    · obtain ⟨ks, hks⟩ := exists_scanPath_scanLoop n (scanEffect s.selected s)
      exact ⟨s.selected :: ks, scanPath_cons.2 ⟨hp, rfl, hks⟩⟩
    · exact ⟨[], scanPath_nil.2 rfl⟩

/-- A path of scan steps writes no byte of `BUF`, no parameter, and neither the encoder's output nor the inbox. -/
theorem scanPath_frame {s u : State} {ks : List ScanStep} (h : scanPath s ks u) :
    u.buf = s.buf ∧ u.cfg = s.cfg ∧ u.encOut = s.encOut ∧ u.inbox = s.inbox := by
  induction ks generalizing s with
  | nil =>
    obtain rfl := scanPath_nil.1 h
    exact ⟨rfl, rfl, rfl, rfl⟩
  | cons k ks ih =>
    obtain ⟨-, -, hks⟩ := scanPath_cons.1 h
    obtain ⟨hbuf, hcfg, henc, hib⟩ := scanEffect_frame k s
    rw [← hbuf, ← hcfg, ← henc, ← hib]
    exact ih hks

/-- Settles O28: the path is the scan loop's, which has stopped and writes none of the fields named. -/
theorem feedIsAppendScanCompact : Obligations.FeedIsAppendScanCompact := by
  intro s c hp hc
  obtain ⟨ks, hks⟩ := exists_scanPath_scanLoop (s.fill + c.length + 1) (s.startFeed c)
  obtain ⟨hbuf, hcfg, henc, hib⟩ := scanPath_frame hks
  refine ⟨ks, _, feedResult c s, hks, scanLoop_startFeed_stopped c s, exec_feed hp hc, rfl, hbuf, hcfg, henc, hib,
    fun a => ?_⟩
  rw [State.readByte, feedResult, State.finishFeed_buf, List.getElem?_drop, hbuf, State.startFeed_buf]

/-- Settles O29: the state after a `FEED` has the invariant, and is idle. -/
theorem feedAlwaysEndsQuiescent : Obligations.FeedAlwaysEndsQuiescent := by
  intro s c hl hp hc
  obtain ⟨hl', -, hq, -, -⟩ := inv_feedResult c hl
  obtain ⟨hcfg, -, -⟩ := feedResult_frame c s
  exact ⟨feedResult c s, exec_feed hp hc, hq rfl, hcfg ▸ fill_le_of_quiescent hl' (hq rfl)⟩

theorem exec_feed_of_quiescent {c : List Byte} {s : State} (hq : s.quiescent)
    (hc : s.cfg.allowsChunk c.length = true) : exec (.feed c) s = .next (feedResult c s) := by
  obtain ⟨hp, -⟩ := hq
  exact exec_feed hp hc

/-- A quiescent decoder stops at once where nothing is added (R131). -/
theorem feedResult_nil {s : State} (hq : s.quiescent) : feedResult [] s = s := by
  obtain ⟨hp, hc, hs⟩ := (quiescent_iff_stops s).1 hq
  rw [feedResult_eq, List.append_nil, streamOf_of_stops hs]
  exact State.ext_fields rfl rfl hc.symm hp.symm (List.append_nil _) rfl rfl

/-- Settles O30: the empty chunk is within every `MAX_CHUNK`. -/
theorem emptyChunkChangesNothing : Obligations.EmptyChunkChangesNothing := by
  intro s hq
  have hc : s.cfg.allowsChunk ([] : List Byte).length = true := (allowsChunk_iff _ _).2 fun m _ => Nat.zero_le m
  rw [exec_feed_of_quiescent hq hc, feedResult_nil hq]

/-- Settles O38: a quiescent tail is shorter than `MAX_LEN`, and no scan step writes the buffer. -/
theorem bufferNeverOverflows : Obligations.BufferNeverOverflows := by
  intro s u c ks hl hq hc hpath
  obtain ⟨hbuf, hcfg, -, -⟩ := scanPath_frame hpath
  have hs := fill_le_of_quiescent hl hq
  have hu : u.fill ≤ s.cfg.maxLen - 1 + c.length := by
    rw [State.fill, hbuf, List.length_append]
    exact Nat.add_le_add_right hs _
  have hcfg' : u.cfg = s.cfg := hcfg
  exact ⟨hs, hu, withinCap_of_tail_chunk (n := c.length) (by rwa [hcfg']) (by rwa [hcfg'])⟩

/-! ## Runs of `FEED`s -/

/-- Two `FEED`s are one `FEED` of their bytes (R135). -/
theorem feedResult_append (c d : List Byte) (s : State) : feedResult d (feedResult c s) = feedResult (c ++ d) s := by
  rw [feedResult_eq, feedResult_eq c, feedResult_eq (c ++ d), ← List.append_assoc, streamOf_append _ (s.buf ++ c)]
  simp only [List.filterMap_append, List.append_assoc]

theorem execAll_cons {i : Instr} {is : List Instr} {s t : State} :
    execAll (i :: is) s = .next t ↔ ∃ u, exec i s = .next u ∧ execAll is u = .next t := by
  rw [execAll]
  cases exec i s <;> simp

/-- After a `FEED`, a run of `FEED`s within the contract answers, as one `FEED` of all the bytes would have. -/
theorem execAll_feed_after_feed {c : List Byte} {cs : List (List Byte)} {s t : State} :
    execAll (cs.map .feed) (feedResult c s) = .next t ↔
      (∀ d ∈ cs, s.cfg.allowsChunk d.length = true) ∧ t = feedResult (c ++ cs.flatten) s := by
  induction cs generalizing c with
  | nil =>
    rw [List.flatten_nil, List.append_nil, eq_comm (a := t)]
    simp [execAll]
  | cons d ds ih =>
    obtain ⟨hcfg, -, -⟩ := feedResult_frame c s
    rw [List.map_cons, execAll_cons, List.forall_mem_cons, List.flatten_cons, ← List.append_assoc, and_assoc, ← ih]
    constructor
    · rintro ⟨u, hu, h⟩
      obtain ⟨-, hd, rfl⟩ := exec_feed_next.1 hu
      exact ⟨hcfg ▸ hd, feedResult_append c d s ▸ h⟩
    · rintro ⟨hd, h⟩
      exact ⟨_, exec_feed_next.2 ⟨rfl, hcfg.symm ▸ hd, (feedResult_append c d s).symm⟩, h⟩

/-- In a quiescent decoder a run of `FEED`s within the contract is one `FEED` of all its bytes. -/
theorem execAll_feed {cs : List (List Byte)} {s : State} (hq : s.quiescent)
    (hc : ∀ c ∈ cs, s.cfg.allowsChunk c.length = true) :
    execAll (cs.map .feed) s = .next (feedResult cs.flatten s) := by
  have h := (execAll_feed_after_feed (c := [])).2 ⟨hc, rfl⟩
  rwa [feedResult_nil hq] at h

/-- Settles O35: both runs are one `FEED` of the same bytes. -/
theorem chunkBoundariesDoNotMatter : Obligations.ChunkBoundariesDoNotMatter := by
  intro s cs ds hq hflat hcs hds
  exact ⟨feedResult cs.flatten s, execAll_feed hq hcs, hflat ▸ execAll_feed hq hds⟩

/-- Settles O36: the pieces are those of the scan of the whole stream, and the count is that of their bytes. -/
theorem everyByteIsAccountedFor : Obligations.EveryByteIsAccountedFor := by
  intro s t cs hb h
  cases cs with
  | nil =>
    obtain rfl : s = t := by simpa [execAll] using h
    exact ⟨[], hb.symm, (List.append_nil _).symm, by simp [State.fill, hb]⟩
  | cons c cs =>
    obtain ⟨u, hu, h⟩ := execAll_cons.1 h
    obtain ⟨-, -, rfl⟩ := exec_feed_next.1 hu
    obtain ⟨-, rfl⟩ := execAll_feed_after_feed.1 h
    rw [feedResult_eq, hb, List.nil_append, List.flatten_cons]
    have hf := streamOf_flatten s.cfg.maxLen (c ++ cs.flatten)
    refine ⟨_, hf.symm, rfl, ?_⟩
    conv_lhs => rw [← hf]
    rw [List.length_append, length_flatMap_bytes]

/-! ## The bytes of the events along a path -/

/-- A step's advance is the bytes of its event, or the one byte of `SCAN.SKIP1` (R137, R165). -/
theorem distance_selected_eq (s : State) : s.selected.distance =
    ((stepEvents s.window s.selected).map Event.byteCount).sum + [s.selected].count .skip1 := by
  cases hk : s.selected with
  | short => rfl
  | skip1 => rfl
  | badlen len => rfl
  | wait len => rfl
  | emit len =>
    obtain ⟨-, -, hfit⟩ := selected_emit hk
    exact (List.length_take_of_le hfit).symm
  | resync2 len => rfl

theorem scanPath_events_cur {s u : State} {ks : List ScanStep} (h : scanPath s ks u) :
    ∃ new, u.events = s.events ++ new ∧ u.cur = s.cur + (new.map Event.byteCount).sum + ks.count .skip1 := by
  induction ks generalizing s with
  | nil =>
    obtain rfl := scanPath_nil.1 h
    exact ⟨[], (List.append_nil _).symm, rfl⟩
  | cons k ks ih =>
    obtain ⟨-, rfl, hks⟩ := scanPath_cons.1 h
    obtain ⟨new, hev, hcur⟩ := ih hks
    rw [scanEffect_events, List.append_assoc] at hev
    refine ⟨_, hev, ?_⟩
    rw [hcur, scanEffect_cur, distance_selected_eq, List.map_append, List.sum_append,
      ← List.singleton_append (l := ks), List.count_append]
    omega

/-- Settles O37: along a path the events are appended and the advances add up. -/
theorem silentlySkippedBytesAreTheSkip1Steps : Obligations.SilentlySkippedBytesAreTheSkip1Steps := by
  intro s u ks _ h
  obtain ⟨new, hev, hcur⟩ := scanPath_events_cur h
  rw [hev, List.drop_left, hcur]

/-! ## Streams fed to an empty decoder -/

/-- A `FEED` to the empty decoder, from the scan of its bytes. -/
theorem feedResult_of_empty {s : State} {c tail : List Byte} {ps : List Piece} (hq : s.quiescent) (hb : s.buf = [])
    (hs : streamOf s.cfg.maxLen c = (ps, tail)) :
    feedResult c s = { s with buf := tail, events := s.events ++ ps.filterMap Piece.event } := by
  obtain ⟨hp, hc, -⟩ := hq
  rw [feedResult_eq, hb, List.nil_append, hs]
  exact State.ext_fields rfl rfl hc.symm hp.symm rfl rfl rfl

theorem feedResult_of_no_tail {s : State} {c : List Byte} {ps : List Piece} (hq : s.quiescent) (hb : s.buf = [])
    (hs : streamOf s.cfg.maxLen c = (ps, [])) :
    feedResult c s = { s with events := s.events ++ ps.filterMap Piece.event } := by
  rw [feedResult_of_empty hq hb hs]
  exact State.ext_fields rfl hb.symm rfl rfl rfl rfl rfl

theorem feedResult_frame_of_empty {s : State} {f : List Byte} (hq : s.quiescent) (hb : s.buf = [])
    (hf : isFrame s.cfg.maxLen f = true) :
    feedResult f s = { s with events := s.events ++ [.validFrame f] } :=
  feedResult_of_no_tail hq hb (streamOf_frame hf)

theorem exec_feed_frame {s : State} {f : List Byte} (hq : s.quiescent) (hb : s.buf = [])
    (hf : isFrame s.cfg.maxLen f = true) (hc : s.cfg.allowsChunk f.length = true) :
    exec (.feed f) s = .next { s with events := s.events ++ [.validFrame f] } := by
  rw [exec_feed_of_quiescent hq hc, feedResult_frame_of_empty hq hb hf]

/-- Settles O39: `ENC` leaves the decoder as it was, and the entry is a frame. -/
theorem catalogRoundTrip : Obligations.CatalogRoundTrip := by
  refine ⟨fun id s hq hb hm hc => ⟨s.answer (cmdBytes id), exec_command id s, rfl, ?_⟩,
    fun s f hq hb hf hc => exec_feed_frame hq hb hf hc⟩
  exact exec_feed_frame (s := s.answer (cmdBytes id)) hq hb (isFrame_cmdBytes hm) hc

/-- Settles O40: all but the last five bytes are skipped, without an event. -/
theorem garbageLeavesAtMostFiveBytes : Obligations.GarbageLeavesAtMostFiveBytes := by
  intro s cs hq hb hg hc
  have hmin : cs.flatten.length - min cs.flatten.length 5 = cs.flatten.length - 5 := by omega
  rw [execAll_feed hq hc, feedResult_of_empty hq hb (streamOf_garbage _ hg), filterMap_event_skipped, List.append_nil,
    hmin]

theorem filterMap_event_frames (fs : List (List Byte)) :
    (fs.map Piece.frame).filterMap Piece.event = fs.map Event.validFrame := by
  rw [List.filterMap_map]
  exact congrFun List.filterMap_eq_map' fs

/-- Settles O41: the pieces of the scan are the frames; and every event of a scan uses up two bytes at least. -/
theorem backToBackFramesAreAllEmitted : Obligations.BackToBackFramesAreAllEmitted := by
  constructor
  · intro s fs hq hb hfs hc
    rw [exec_feed_of_quiescent hq hc, feedResult_of_no_tail hq hb (streamOf_frames hfs), filterMap_event_frames]
  · intro s t c h
    obtain ⟨-, -, rfl⟩ := exec_feed_next.1 h
    have hev := two_mul_events_streamOf_le s.cfg.maxLen (s.buf ++ c)
    rw [List.length_append] at hev
    rw [feedResult_eq, List.length_append, Nat.add_sub_cancel_left]
    exact hev

theorem allowsChunk_of_le {c : Config} {m n : Nat} (hn : c.allowsChunk n = true) (h : m ≤ n) :
    c.allowsChunk m = true :=
  (allowsChunk_iff _ _).2 fun k hk => h.trans ((allowsChunk_iff _ _).1 hn k hk)

/-- Settles O42: a scan stops at once at a part of a frame; and two `FEED`s are one of the whole frame. -/
theorem splitFrameIsEmittedOnce : Obligations.SplitFrameIsEmittedOnce := by
  intro s f k hq hb hf hc hk
  have htake : s.cfg.allowsChunk (f.take k).length = true := allowsChunk_of_le hc (List.length_take_le' k f)
  have hdrop : s.cfg.allowsChunk (f.drop k).length = true :=
    allowsChunk_of_le hc ((List.drop_sublist k f).length_le)
  constructor
  · intro hlt
    rw [exec_feed_of_quiescent hq htake, feedResult_of_empty hq hb (streamOf_take_frame hf hlt), List.filterMap_nil,
      List.append_nil]
  · have hrun := execAll_feed (cs := [f.take k, f.drop k]) hq
      (List.forall_mem_cons.2 ⟨htake, List.forall_mem_singleton.2 hdrop⟩)
    rw [List.flatten_cons, List.flatten_singleton, List.take_append_drop, feedResult_frame_of_empty hq hb hf] at hrun
    exact hrun

/-- Settles O43: the garbage is skipped without an event, and the frame found. -/
theorem frameAfterGarbageIsFound : Obligations.FrameAfterGarbageIsFound := by
  intro s g f cs hq hb hg hf hflat hc
  rw [execAll_feed hq hc, hflat, feedResult_of_no_tail hq hb (streamOf_garbage_frame hg hf), List.filterMap_append,
    filterMap_event_skipped]
  rfl

end Sys2Proof.Machine
end

section
/-! SUPPORT. Proofs of family 60: what a step puts out and what it refuses. Every state change appends to the two
outputs and keeps the parameters (`AppendsOutputs`); the events it appends are those of pieces of the scanned stream,
and `SCAN.EMIT` is selected at valid frames only (`isFrame_take_of_emit`). A step of the decoder's own always answers,
so that a refusal is the host's doing. -/

namespace Sys2Proof.Machine

/-! ## The events of a scan -/

/-- `SCAN.EMIT` is selected at a valid frame of the build only (R64, R162). -/
theorem isFrame_take_of_emit {m : Nat} {w : List Byte} {len : Len} (h : decodeScan m w = .emit len) :
    isFrame m (w.take len.toNat) = true := by
  rcases decodeScan_cases m w with ⟨e, -⟩ | ⟨e, -⟩ | ⟨e, -⟩ | ⟨e, -⟩ | ⟨e, -, hh, hr, hc, hf⟩ | ⟨e, -⟩ <;>
    rw [e] at h <;> cases h
  obtain ⟨hmin, hmax⟩ := (lenInRange_iff _ _).1 hr
  have h6 : 6 ≤ (declaredLen w).toNat := hmin
  have hlen := List.length_take_of_le hc
  have hw := List.take_append_drop (declaredLen w).toNat w
  rw [isFrame_iff, hlen]
  refine ⟨h6, hmax, ?_, ?_, ?_⟩
  · rwa [← hasHeader_append (by omega), hw]
  · rw [← declaredLen_append (by omega), hw]
  · rwa [← hasFooter_append (by omega) hlen.ge, hw]

/-- The event of a piece is proper: a frame's is that of `SCAN.EMIT`, and a `Resync` records 2 (R163). -/
theorem proper_of_stepPiece {m : Nat} {w : List Byte} {p : Piece} {e : Event}
    (h : stepPiece w (decodeScan m w) = some p) (he : p.event = some e) : e.proper m = true := by
  cases hk : decodeScan m w <;> rw [hk] at h <;> cases h <;> cases he
  case badlen => rfl
  case emit => exact isFrame_take_of_emit hk
  case resync2 => rfl

theorem proper_of_mem_stepEvents {m : Nat} {w : List Byte} {e : Event} (he : e ∈ stepEvents w (decodeScan m w)) :
    e.proper m = true := by
  obtain ⟨p, hp, hpe⟩ := Option.bind_eq_some_iff.1 (Option.mem_toList.1 he)
  exact proper_of_stepPiece hp hpe

theorem proper_of_mem_streamOf {m : Nat} {w : List Byte} :
    ∀ e ∈ (streamOf m w).1.filterMap Piece.event, e.proper m = true := by
  induction w using streamOf_induction (m := m) with
  | stop w h =>
    rw [streamOf_none h]
    exact List.forall_mem_nil _
  | cont w p h ih =>
    rw [streamOf_some h, List.filterMap_cons]
    cases he : p.event with
    | none => exact ih
    | some e => exact List.forall_mem_cons.2 ⟨proper_of_stepPiece h he, ih⟩

/-! ## What a step puts out -/

/-- From `s` to `t` outputs have been appended only, the events among them proper (R161, R162, R163), and the
parameters kept (R24). -/
structure AppendsOutputs (s t : State) : Prop where
  cfg : t.cfg = s.cfg
  encOut : s.encOut <+: t.encOut
  events : ∃ new, t.events = s.events ++ new ∧ ∀ e ∈ new, e.proper s.cfg.maxLen = true

/-- What leaves the outputs and the parameters alone appends nothing. -/
theorem AppendsOutputs.of_eq {s t : State} (hcfg : t.cfg = s.cfg) (henc : t.encOut = s.encOut)
    (hev : t.events = s.events) : AppendsOutputs s t :=
  ⟨hcfg, henc ▸ List.prefix_rfl, [], by rw [hev, List.append_nil], List.forall_mem_nil _⟩

theorem appendsOutputs_answer (bs : List Byte) (s : State) : AppendsOutputs s (s.answer bs) :=
  ⟨rfl, List.prefix_append _ _, [], (List.append_nil _).symm, List.forall_mem_nil _⟩

theorem appendsOutputs_scanEffect (s : State) : AppendsOutputs s (scanEffect s.selected s) := by
  obtain ⟨-, hcfg, henc, -⟩ := scanEffect_frame s.selected s
  exact ⟨hcfg, henc ▸ List.prefix_rfl, _, scanEffect_events _ s, fun _ => proper_of_mem_stepEvents⟩

theorem appendsOutputs_feedResult (c : List Byte) (s : State) : AppendsOutputs s (feedResult c s) := by
  rw [feedResult_eq]
  exact ⟨rfl, List.prefix_rfl, _, rfl, proper_of_mem_streamOf⟩

theorem appendsOutputs_exec {i : Instr} {s t : State} (h : exec i s = .next t) : AppendsOutputs s t := by
  rcases exec_cases h with ⟨id, -, rfl⟩ | ⟨-, -, rfl⟩ | ⟨c, -, -, -, rfl⟩ | ⟨-, rfl⟩
  · exact appendsOutputs_answer _ s
  · exact appendsOutputs_scanEffect s
  · exact appendsOutputs_feedResult c s
  · exact .of_eq rfl rfl rfl

/-- A step is an operation, the beginning or the end of a `FEED`, or rest; what it takes out of the inbox is no
output. -/
theorem appendsOutputs_step {s s' : State} (h : step s = .next s') : AppendsOutputs s s' := by
  obtain ⟨ib, ⟨i, hx⟩ | ⟨c, -, -, rfl⟩ | ⟨-, rfl⟩ | rfl⟩ := step_cases h
  · obtain ⟨hcfg, henc, hev⟩ := appendsOutputs_exec hx
    exact ⟨hcfg, henc, hev⟩
  · exact .of_eq rfl rfl rfl
  · exact .of_eq rfl rfl rfl
  · exact .of_eq rfl rfl rfl

/-- Settles O50: the events that a step has added are those it appends. -/
theorem onlyProperEventsAreEmitted : Obligations.OnlyProperEventsAreEmitted := by
  intro s s' h
  obtain ⟨-, -, new, hev, hproper⟩ := appendsOutputs_step h
  rwa [hev, List.drop_left]

/-- Settles O51: both outputs are appended to. -/
theorem outputsAreOnlyAppendedTo : Obligations.OutputsAreOnlyAppendedTo := by
  intro s s' h
  obtain ⟨hcfg, henc, new, hev, -⟩ := appendsOutputs_step h
  exact ⟨hev ▸ List.prefix_append _ _, henc, hcfg⟩

/-! ## What a step refuses -/

/-- The decoder's own move is never refused: a scan step runs where it is selected (R66, R160). -/
theorem exists_next_of_ownAction (s : State) (ib : List Request) :
    ∃ t, perform (ownAction s) { s with inbox := ib } = .next t := by
  rcases ownAction_cases s with ⟨-, e⟩ | ⟨hp, e⟩ | ⟨-, e⟩ <;> rw [e]
  · exact ⟨_, rfl⟩
  · exact ⟨_, exec_selected (s := { s with inbox := ib }) hp⟩
  · exact ⟨_, rfl⟩

/-- Under its guard a `FEED` answers, or is refused by the name of the broken clause of R132. -/
theorem feedGuard_cases (c : List Byte) (s t : State) :
    feedGuard c s t = .next t ∨
    (s.phase ≠ .idle ∧ feedGuard c s t = .refused .overlappingFeed) ∨
    (s.phase = .idle ∧ s.cfg.allowsChunk c.length = false ∧ feedGuard c s t = .refused .chunkTooLong) := by
  by_cases hp : s.phase = .idle
  · cases hc : s.cfg.allowsChunk c.length with
    | true => exact .inl (feedGuard_next.2 ⟨hp, hc, rfl⟩)
    | false => exact .inr (.inr ⟨hp, rfl, feedGuard_refused.2 (.inr ⟨rfl, hp, hc⟩)⟩)
  · exact .inr (.inl ⟨hp, feedGuard_refused.2 (.inl ⟨rfl, hp⟩)⟩)

/-- A host operation taken up answers, or is a `FEED`, at either grain, under its guard (R132). -/
theorem perform_serve_cases (s u : State) (op : HostOp) :
    (∃ t, perform (serve s op) u = .next t) ∨
    ∃ c t, (op = .feed c ∨ op = .feedStepwise c) ∧ perform (serve s op) u = feedGuard c u t := by
  cases op with
  | command bits => exact .inl ⟨_, exec_command (decodeCommand bits) u⟩
  | feed c => exact .inr ⟨c, feedResult c u, .inl rfl, rfl⟩
  | feedStepwise c => exact .inr ⟨c, u.startFeed c, .inr rfl, rfl⟩
  | reset => exact .inl ⟨_, exec_reset u⟩
  | resetWithFeed c => exact .inl ⟨_, exec_reset u⟩

/-- Settles O53: the decoder's own move answers, and so does every host operation but a `FEED` against its contract. -/
theorem onlyTheHostsContractIsRefused : Obligations.OnlyTheHostsContractIsRefused := by
  intro s
  match hi : s.inbox with
  | [] =>
    rw [step_of_inbox_nil hi]
    exact .inl (exists_next_of_ownAction s s.inbox)
  | ⟨n, op⟩ :: rest =>
    by_cases hd : s.phase = .idle ∨ n = 0
    · rw [step_due hi hd]
      rcases perform_serve_cases s { s with inbox := rest } op with hnext | ⟨c, t, hop, hx⟩
      · exact .inl hnext
      · rw [hx]
        rcases feedGuard_cases c { s with inbox := rest } t with hnext | ⟨hp, hr⟩ | hlong
        · exact .inl ⟨t, hnext⟩
        · exact .inr ⟨n, op, c, rest, rfl, hop, .inl ⟨hp, hd.resolve_left hp, hr⟩⟩
        · exact .inr ⟨n, op, c, rest, rfl, hop, .inr hlong⟩
    · obtain ⟨hp, hn⟩ := not_or.1 hd
      obtain ⟨k, rfl⟩ := Nat.exists_eq_succ_of_ne_zero hn
      rw [step_waiting hi hp]
      exact .inl (exists_next_of_ownAction s _)

end Sys2Proof.Machine
end

section
/-! SUPPORT. Proofs of family 70: resets during a `FEED`, and the hazards. The paths of scan steps from a state are the
beginnings of one path (`scanPath_extends_to_stop`), each step of which adds one event at most, so that a reset cuts the
events of a `FEED` off at any point. A tail that a scan stops at is kept whole (`feedResult_of_stops`). -/

namespace Sys2Proof.Machine

/-! ## Resets during a `FEED` -/

theorem events_prefix_of_scanPath {s u : State} {ks : List ScanStep} (h : scanPath s ks u) : s.events <+: u.events := by
  obtain ⟨new, hev, -⟩ := scanPath_events_cur h
  exact hev ▸ List.prefix_append _ _

/-- Every path leads on to where the scan stops: the bytes at the cursor select each step (R66). -/
theorem scanPath_extends_to_stop {s u t : State} {ks ls : List ScanStep} (hu : scanPath s ks u)
    (ht : scanPath s ls t) (hstop : t.phase = .stopped) : ∃ rest, scanPath u rest t := by
  induction ks generalizing s ls with
  | nil =>
    obtain rfl := scanPath_nil.1 hu
    exact ⟨ls, ht⟩
  | cons k ks ih =>
    obtain ⟨hp, rfl, hks⟩ := scanPath_cons.1 hu
    cases ls with
    | nil =>
      obtain rfl := scanPath_nil.1 ht
      simp [hp] at hstop
    | cons l ls =>
      obtain ⟨-, rfl, hls⟩ := scanPath_cons.1 ht
      exact ih hks hls

/-- A path can be left after any number of the events it adds: no step adds two. -/
theorem exists_scanPath_take {s u : State} {ks : List ScanStep} {new : List Event} (h : scanPath s ks u)
    (hev : u.events = s.events ++ new) (n : Nat) :
    ∃ ls v, scanPath s ls v ∧ v.events = s.events ++ new.take n := by
  induction ks generalizing s new n with
  | nil =>
    obtain rfl := scanPath_nil.1 h
    obtain rfl : new = [] := List.self_eq_append_right.1 hev
    exact ⟨[], s, scanPath_nil.2 rfl, by rwa [List.take_nil]⟩
  | cons k ks ih =>
    obtain ⟨hp, rfl, hks⟩ := scanPath_cons.1 h
    cases n with
    | zero => exact ⟨[], s, scanPath_nil.2 rfl, (List.append_nil _).symm⟩
    | succ n =>
      obtain ⟨later, hlater, -⟩ := scanPath_events_cur hks
      have hnew : new = stepEvents s.window s.selected ++ later := by
        rw [hev, scanEffect_events, List.append_assoc] at hlater
        exact List.append_cancel_left hlater
      have hone : (stepEvents s.window s.selected).length ≤ n + 1 :=
        (stepEvents_length_le _ _).trans (Nat.le_add_left 1 n)
      obtain ⟨ls, v, hls, hv⟩ := ih hks hlater (n + 1 - (stepEvents s.window s.selected).length)
      refine ⟨s.selected :: ls, v, scanPath_cons.2 ⟨hp, rfl, hls⟩, ?_⟩
      rw [hv, scanEffect_events, List.append_assoc, hnew, List.take_append, List.take_of_length_le hone]

/-- The scan of a `FEED` as a path to where it stops, with the events of the `FEED`. -/
theorem exists_scanPath_feed (c : List Byte) (s : State) : ∃ ls w,
    scanPath (s.startFeed c) ls w ∧ w.phase = .stopped ∧ w.events = (feedResult c s).events := by
  obtain ⟨ls, hls⟩ := exists_scanPath_scanLoop (s.fill + c.length + 1) (s.startFeed c)
  exact ⟨ls, _, hls, scanLoop_startFeed_stopped c s, rfl⟩

/-- Settles O34: the path to the reset leads on to the end of the scan, which has the events of the `FEED`; and that
longer path can be left after any number of them. -/
theorem resetDuringFeedDeliversAPrefix : Obligations.ResetDuringFeedDeliversAPrefix := by
  intro s t c h
  obtain ⟨-, -, rfl⟩ := exec_feed_next.1 h
  obtain ⟨ls, w, hls, hstop, hw⟩ := exists_scanPath_feed c s
  rw [← hw]
  constructor
  · intro ks u v hks hv
    obtain rfl := Host.Outcome.next.inj ((exec_reset u).symm.trans hv)
    obtain ⟨rest, hrest⟩ := scanPath_extends_to_stop hks hls hstop
    have hbefore : s.events <+: u.events := events_prefix_of_scanPath (s := s.startFeed c) hks
    have hafter : u.events <+: w.events := events_prefix_of_scanPath hrest
    exact ⟨hbefore, hafter, rfl, rfl, rfl⟩
  · intro n
    obtain ⟨new, hnew, -⟩ := scanPath_events_cur hls
    obtain ⟨ks, u, hks, hu⟩ := exists_scanPath_take hls hnew n
    rw [State.startFeed_events] at hnew hu
    refine ⟨ks, u, u.clear, hks, exec_reset u, ?_⟩
    rw [State.clear_events, hu, hnew, List.drop_left]

/-! ## Hazards -/

/-- A `FEED` after which a scan stops at the first byte keeps everything. -/
theorem feedResult_of_stops {s : State} {c : List Byte} (hq : s.quiescent)
    (hs : (decodeScan s.cfg.maxLen (s.buf ++ c)).stops = true) : feedResult c s = { s with buf := s.buf ++ c } := by
  obtain ⟨hp, hc, -⟩ := hq
  rw [feedResult_eq, streamOf_of_stops hs]
  exact State.ext_fields rfl rfl hc.symm hp.symm (List.append_nil _) rfl rfl

/-- Settles O44: a scan stops at an incomplete frame. -/
theorem incompleteFrameHoldsEverythingBack : Obligations.IncompleteFrameHoldsEverythingBack := by
  intro s c hq hc hi
  rw [exec_feed_of_quiescent hq hc, feedResult_of_stops hq ((decodeScan_stops_iff _ _).2 (.inr hi))]

/-- A header directly behind a header is read as the length `0xC88C` (R187). -/
theorem declaredLen_header_of_hasHeader {f : List Byte} (h : hasHeader f = true) :
    declaredLen (HEADER ++ f) = 0xC88C := by
  rw [header_split h, ← List.append_assoc]
  exact declaredLen_header 0xC88C (f.drop 2)

/-- Settles O45: the stray header and the frame behind it are an incomplete frame of 51340 bytes. -/
theorem strayHeaderBeforeAFrameStalls : Obligations.StrayHeaderBeforeAFrameStalls := by
  intro s f hcfg hq hb hf hlt
  obtain ⟨h6, -, hh, -, -⟩ := (isFrame_iff _ f).1 hf
  have hlen : (declaredLen (HEADER ++ f)).toNat = 51340 := congrArg BitVec.toNat (declaredLen_header_of_hasHeader hh)
  have hbytes : (HEADER ++ f).length = f.length + 2 := rfl
  have hwait : incompleteFrame s.cfg.maxLen (s.buf ++ (HEADER ++ f)) := by
    rw [hb, List.nil_append, hcfg]
    refine ⟨?_, hasHeader_header f, ?_, ?_, ?_⟩
    · exact hbytes ▸ Nat.le_add_right_of_le h6
    · rw [hlen]
      decide
    · rw [hlen]
      decide
    · rwa [hlen, hbytes]
  have hfeed := incompleteFrameHoldsEverythingBack s (HEADER ++ f) hq (by rw [hcfg]; rfl) hwait
  rwa [hb] at hfeed

end Sys2Proof.Machine
end
